-- ==== Sys2Proof/Word.lean ====
section
/-! DEFINITION. The word types of the chip8py core (00_scope.md R6, R8). -/

namespace Sys2Proof

/-- A memory byte, a general register, an immediate `kk`. -/
abbrev Byte := BitVec 8

/-- An instruction word, `PC`, `I`, a stack entry. -/
abbrev Word := BitVec 16

/-- The index of a general register: a nibble, so it is always in 0..15 (10_state.md R10). -/
abbrev RegIdx := BitVec 4

/-- A 4-bit field that is not a register index: the sprite height `n`. -/
abbrev Nibble := BitVec 4

/-- The address immediate `nnn`. -/
abbrev Addr := BitVec 12

/-- The faulting address of the error record: an integer of up to 17 bits (10_state.md R19). -/
abbrev FaultAddr := BitVec 17

end Sys2Proof
end

