-- ==== Sys2Proof/Config.lean ====
section
/-! DEFINITION. What is fixed for the machine: the fixed sizes (00_scope.md R6), the settings its policy
parameters can take (R7), and the free values (no body, so nothing is known of them).
The values this hardware gives the parameters stand in Machine/Params.lean. -/

namespace Sys2Proof.Config

/-- `MEM_SIZE`: addresses 0x000 to 0xFFF (R6). -/
def memSize : Nat := 4096

/-- The last address that exists, 0xFFF (20_memory.md R40). -/
def memTop : Nat := 0xFFF

/-- `ROM_BASE` (R6). -/
def romBase : Nat := 0x200

/-- `ROM_MAX`: 4096 - 0x200 bytes (R6). -/
def romMax : Nat := 3584

/-- `PC_RESET` (R6). -/
def pcReset : Word := 0x200#16

/-- `DISP_W`, the columns of the display plane (R6). -/
def dispW : Nat := 64

/-- `DISP_H`, the rows of the display plane (R6). -/
def dispH : Nat := 32

/-- `NKEYS` (R6). -/
def nKeys : Nat := 16

/-- What SKP and SKNP do with a key index above 15: `KEY_INDEX_POLICY` (R7, 45_input_and_timers.md R152). -/
inductive KeyIndexPolicy where
  /-- The low four bits select the key. -/
  | lowNibble
  /-- A key index above 15 is a key that is never pressed. -/
  | notPressed
  /-- The instruction has no meaning for a key index above 15. -/
  | fault
  deriving DecidableEq, Repr

/-- What a flag-defining arithmetic instruction does when it names register 15: `VF_ALIAS_POLICY`
(R7, 42_load_and_alu.md R110). -/
inductive VfAliasPolicy where
  /-- Operands are read first, the result is written, the flag is written last. -/
  | flagLast
  /-- Those words have no meaning. -/
  | refuse
  deriving DecidableEq, Repr

/-- FREE VALUE (log 1). `rand k` is what the environment answers to the `k`-th `Rand()` (R7, 42 R122). -/
opaque rand : Nat → Byte

/-- FREE VALUE (log 2). `timerRead k` is what the environment answers to the `k`-th `TimerRead()`
(R7, 45 R155). -/
opaque timerRead : Nat → Byte

/-- FREE VALUE (log 3). `ERR.op` after the `k`-th fatal error where the kind leaves it unspecified: a fetch
fault (60_exceptions.md R165). -/
opaque errOp : Nat → Word

/-- FREE VALUE (log 3). `ERR.addr` after the `k`-th fatal error where the kind leaves it unspecified: the two
stack kinds (60_exceptions.md R165). -/
opaque errAddr : Nat → FaultAddr

end Sys2Proof.Config
end

