-- ==== Sys2Proof/Syntax.lean ====
section
/-! DEFINITION. The instruction set: one constructor per row of the opcode map (30_encoding.md R66), in its order. -/

namespace Sys2Proof

/-- The 34 instructions. A field is what 30_encoding.md R62 cuts from the word; ignored bits (R68) are no part of
an instruction. -/
inductive Instr where
  /-- `CLS` (R141). -/
  | cls
  /-- `RET` (R91). -/
  | ret
  /-- `JP addr` (R92). -/
  | jp (nnn : Addr)
  /-- `CALL addr` (R93). -/
  | call (nnn : Addr)
  /-- `SE Vx,kk` (R94). -/
  | seVxKk (x : RegIdx) (kk : Byte)
  /-- `SNE Vx,kk` (R95). -/
  | sneVxKk (x : RegIdx) (kk : Byte)
  /-- `SE Vx,Vy` (R96). -/
  | seVxVy (x y : RegIdx)
  /-- `LD Vx,kk` (R111). -/
  | ldVxKk (x : RegIdx) (kk : Byte)
  /-- `ADD Vx,kk` (R112). -/
  | addVxKk (x : RegIdx) (kk : Byte)
  /-- `LD Vx,Vy` (R113). -/
  | ldVxVy (x y : RegIdx)
  /-- `OR Vx,Vy` (R114). -/
  | orVxVy (x y : RegIdx)
  /-- `AND Vx,Vy` (R115). -/
  | andVxVy (x y : RegIdx)
  /-- `XOR Vx,Vy` (R116). -/
  | xorVxVy (x y : RegIdx)
  /-- `ADD Vx,Vy` (R117). -/
  | addVxVy (x y : RegIdx)
  /-- `SUB Vx,Vy` (R118). -/
  | subVxVy (x y : RegIdx)
  /-- `SHR Vx` (R119). -/
  | shrVx (x : RegIdx)
  /-- `SUBN Vx,Vy` (R120). -/
  | subnVxVy (x y : RegIdx)
  /-- `SHL Vx` (R121). -/
  | shlVx (x : RegIdx)
  /-- `SNE Vx,Vy` (R97). -/
  | sneVxVy (x y : RegIdx)
  /-- `LD I,addr` (R130). -/
  | ldIAddr (nnn : Addr)
  /-- `JP V0,addr` (R98). -/
  | jpV0Addr (nnn : Addr)
  /-- `RND Vx,kk` (R122). -/
  | rndVxKk (x : RegIdx) (kk : Byte)
  /-- `DRW Vx,Vy,n` (R142). -/
  | drwVxVyN (x y : RegIdx) (n : Nibble)
  /-- `SKP Vx` (R150). -/
  | skpVx (x : RegIdx)
  /-- `SKNP Vx` (R151). -/
  | sknpVx (x : RegIdx)
  /-- `LD Vx,DT` (R155). -/
  | ldVxDt (x : RegIdx)
  /-- `LD Vx,K` (R153). -/
  | ldVxK (x : RegIdx)
  /-- `LD DT,Vx` (R156). -/
  | ldDtVx (x : RegIdx)
  /-- `LD ST,Vx` (R157). -/
  | ldStVx (x : RegIdx)
  /-- `ADD I,Vx` (R131). -/
  | addIVx (x : RegIdx)
  /-- `LD F,Vx` (R132). -/
  | ldFVx (x : RegIdx)
  /-- `LD B,Vx` (R133). -/
  | ldBVx (x : RegIdx)
  /-- `LD [I],Vx` (R134). -/
  | ldMemVx (x : RegIdx)
  /-- `LD Vx,[I]` (R135). -/
  | ldVxMem (x : RegIdx)
  deriving DecidableEq, Repr

end Sys2Proof
end

