-- ==== Sys2Proof/WellFormed.lean ====
section
/-! DEFINITION. What is well formed: an instruction, a ROM image, a key code. -/

namespace Sys2Proof

/-- A register or nibble field is in 0..15 (10_state.md R10, 30_encoding.md R62). -/
def fitsNibble (n : Nat) : Bool := n < 16

/-- A byte immediate is in 0..255 (30_encoding.md R63). -/
def fitsByte (n : Nat) : Bool := n < 256

/-- An address immediate is in 0..4095 (30_encoding.md R63). -/
def fitsAddr (n : Nat) : Bool := n < 4096

/-- Every operand is in the range its field can hold. The fields' types make this true of EVERY instruction, as
30_encoding.md R62 says it holds "by construction" (proved in Laws/PerInstr.lean). -/
def Instr.wellFormed : Instr → Bool
  | .cls => true
  | .ret => true
  | .jp nnn => fitsAddr nnn.toNat
  | .call nnn => fitsAddr nnn.toNat
  | .seVxKk x kk => fitsNibble x.toNat && fitsByte kk.toNat
  | .sneVxKk x kk => fitsNibble x.toNat && fitsByte kk.toNat
  | .seVxVy x y => fitsNibble x.toNat && fitsNibble y.toNat
  | .ldVxKk x kk => fitsNibble x.toNat && fitsByte kk.toNat
  | .addVxKk x kk => fitsNibble x.toNat && fitsByte kk.toNat
  | .ldVxVy x y => fitsNibble x.toNat && fitsNibble y.toNat
  | .orVxVy x y => fitsNibble x.toNat && fitsNibble y.toNat
  | .andVxVy x y => fitsNibble x.toNat && fitsNibble y.toNat
  | .xorVxVy x y => fitsNibble x.toNat && fitsNibble y.toNat
  | .addVxVy x y => fitsNibble x.toNat && fitsNibble y.toNat
  | .subVxVy x y => fitsNibble x.toNat && fitsNibble y.toNat
  | .shrVx x => fitsNibble x.toNat
  | .subnVxVy x y => fitsNibble x.toNat && fitsNibble y.toNat
  | .shlVx x => fitsNibble x.toNat
  | .sneVxVy x y => fitsNibble x.toNat && fitsNibble y.toNat
  | .ldIAddr nnn => fitsAddr nnn.toNat
  | .jpV0Addr nnn => fitsAddr nnn.toNat
  | .rndVxKk x kk => fitsNibble x.toNat && fitsByte kk.toNat
  | .drwVxVyN x y n => fitsNibble x.toNat && fitsNibble y.toNat && fitsNibble n.toNat
  | .skpVx x => fitsNibble x.toNat
  | .sknpVx x => fitsNibble x.toNat
  | .ldVxDt x => fitsNibble x.toNat
  | .ldVxK x => fitsNibble x.toNat
  | .ldDtVx x => fitsNibble x.toNat
  | .ldStVx x => fitsNibble x.toNat
  | .addIVx x => fitsNibble x.toNat
  | .ldFVx x => fitsNibble x.toNat
  | .ldBVx x => fitsNibble x.toNat
  | .ldMemVx x => fitsNibble x.toNat
  | .ldVxMem x => fitsNibble x.toNat

/-- A ROM image that `loadRom` accepts: at most 3584 bytes (70_reset_and_hazards.md R192). -/
def romFits (bytes : List Byte) : Bool := bytes.length ≤ Config.romMax

/-- A key code the key commands act on: 0 to 15 (60_exceptions.md R179, R180). -/
def keyCodeValid (code : Nat) : Bool := code < Config.nKeys

end Sys2Proof
end

