-- ==== Sys2Proof/Decode.lean ====
section
/-! DEFINITION. The decoder (30_encoding.md R60 to R69), total on any bytes, and after it the encoder and the
assembler spelling (R75). -/

namespace Sys2Proof

/-- Why bytes are no instruction. -/
inductive DecodeError where
  /-- The word selects no row of the opcode map: `Unknown` (R67). -/
  | unknownOpcode (op : Word)
  /-- Fewer than two bytes are left; an instruction is one 16-bit word (R60). -/
  | truncated
  deriving DecidableEq, Repr

/-- `N3`, the family nibble (00_scope.md R8). -/
def fieldFamily (op : Word) : Nibble := op.extractLsb' 12 4

/-- `x = op[11:8]` (R62). -/
def fieldX (op : Word) : RegIdx := op.extractLsb' 8 4

/-- `y = op[7:4]` (R62). -/
def fieldY (op : Word) : RegIdx := op.extractLsb' 4 4

/-- `n = op[3:0]` (R62). -/
def fieldN (op : Word) : Nibble := op.extractLsb' 0 4

/-- `kk = op[7:0]` (R62). -/
def fieldKk (op : Word) : Byte := op.extractLsb' 0 8

/-- `nnn = op[11:0]` (R62). -/
def fieldNnn (op : Word) : Addr := op.extractLsb' 0 12

/-- One row of the opcode map: the row is selected when `op &&& mask = pat` (R66), and then `build` cuts the
operands out of the word. -/
structure OpcodeRow where
  pat : Word
  mask : Word
  build : Word → Instr

/-- Families 0x0 to 0x7 of the opcode map (R66). -/
def rowsLow : List OpcodeRow := [
  ⟨0x00E0#16, 0xF0FF#16, fun _ => .cls⟩,
  ⟨0x00EE#16, 0xF0FF#16, fun _ => .ret⟩,
  ⟨0x1000#16, 0xF000#16, fun op => .jp (fieldNnn op)⟩,
  ⟨0x2000#16, 0xF000#16, fun op => .call (fieldNnn op)⟩,
  ⟨0x3000#16, 0xF000#16, fun op => .seVxKk (fieldX op) (fieldKk op)⟩,
  ⟨0x4000#16, 0xF000#16, fun op => .sneVxKk (fieldX op) (fieldKk op)⟩,
  ⟨0x5000#16, 0xF000#16, fun op => .seVxVy (fieldX op) (fieldY op)⟩,
  ⟨0x6000#16, 0xF000#16, fun op => .ldVxKk (fieldX op) (fieldKk op)⟩,
  ⟨0x7000#16, 0xF000#16, fun op => .addVxKk (fieldX op) (fieldKk op)⟩]

/-- Family 0x8 of the opcode map, the register-register operations (R66). -/
def rowsAlu : List OpcodeRow := [
  ⟨0x8000#16, 0xF00F#16, fun op => .ldVxVy (fieldX op) (fieldY op)⟩,
  ⟨0x8001#16, 0xF00F#16, fun op => .orVxVy (fieldX op) (fieldY op)⟩,
  ⟨0x8002#16, 0xF00F#16, fun op => .andVxVy (fieldX op) (fieldY op)⟩,
  ⟨0x8003#16, 0xF00F#16, fun op => .xorVxVy (fieldX op) (fieldY op)⟩,
  ⟨0x8004#16, 0xF00F#16, fun op => .addVxVy (fieldX op) (fieldY op)⟩,
  ⟨0x8005#16, 0xF00F#16, fun op => .subVxVy (fieldX op) (fieldY op)⟩,
  ⟨0x8006#16, 0xF00F#16, fun op => .shrVx (fieldX op)⟩,
  ⟨0x8007#16, 0xF00F#16, fun op => .subnVxVy (fieldX op) (fieldY op)⟩,
  ⟨0x800E#16, 0xF00F#16, fun op => .shlVx (fieldX op)⟩]

/-- Families 0x9 to 0xE of the opcode map (R66). -/
def rowsHigh : List OpcodeRow := [
  ⟨0x9000#16, 0xF000#16, fun op => .sneVxVy (fieldX op) (fieldY op)⟩,
  ⟨0xA000#16, 0xF000#16, fun op => .ldIAddr (fieldNnn op)⟩,
  ⟨0xB000#16, 0xF000#16, fun op => .jpV0Addr (fieldNnn op)⟩,
  ⟨0xC000#16, 0xF000#16, fun op => .rndVxKk (fieldX op) (fieldKk op)⟩,
  ⟨0xD000#16, 0xF000#16, fun op => .drwVxVyN (fieldX op) (fieldY op) (fieldN op)⟩,
  ⟨0xE09E#16, 0xF0FF#16, fun op => .skpVx (fieldX op)⟩,
  ⟨0xE0A1#16, 0xF0FF#16, fun op => .sknpVx (fieldX op)⟩]

/-- Family 0xF of the opcode map (R66). -/
def rowsF : List OpcodeRow := [
  ⟨0xF007#16, 0xF0FF#16, fun op => .ldVxDt (fieldX op)⟩,
  ⟨0xF00A#16, 0xF0FF#16, fun op => .ldVxK (fieldX op)⟩,
  ⟨0xF015#16, 0xF0FF#16, fun op => .ldDtVx (fieldX op)⟩,
  ⟨0xF018#16, 0xF0FF#16, fun op => .ldStVx (fieldX op)⟩,
  ⟨0xF01E#16, 0xF0FF#16, fun op => .addIVx (fieldX op)⟩,
  ⟨0xF029#16, 0xF0FF#16, fun op => .ldFVx (fieldX op)⟩,
  ⟨0xF033#16, 0xF0FF#16, fun op => .ldBVx (fieldX op)⟩,
  ⟨0xF055#16, 0xF0FF#16, fun op => .ldMemVx (fieldX op)⟩,
  ⟨0xF065#16, 0xF0FF#16, fun op => .ldVxMem (fieldX op)⟩]

/-- The opcode map, 34 rows (R66). The `pat` values and the field positions are PRESUMED: the spec supplies
them from general knowledge (log 16). -/
def opcodeMap : List OpcodeRow := rowsLow ++ rowsAlu ++ rowsHigh ++ rowsF

/-- The mask of a family (R64, R65). -/
def familyMask (fam : Nibble) : Word :=
  if fam = 0x0#4 ∨ fam = 0xE#4 ∨ fam = 0xF#4 then 0xF0FF#16
  else if fam = 0x8#4 then 0xF00F#16
  else 0xF000#16

/-- The key by which the decoder looks a word up: the word under its family's mask (R64). -/
def decodeKey (op : Word) : Word := op &&& familyMask (fieldFamily op)

/-- `Decode(op)` (R64): a pure, total function of the word. -/
def decodeWord (op : Word) : Except DecodeError Instr :=
  match opcodeMap.find? (fun row => row.pat == decodeKey op) with
  | some row => .ok (row.build op)
  | none => .error (.unknownOpcode op)

/-- Two bytes as a word, the first in the high half: the only byte order there is (20_memory.md R42). -/
def wordOfBytes (hi lo : Byte) : Word := hi ++ lo

/-- The byte of a word that stands at the lower address (20_memory.md R42). -/
def wordHi (op : Word) : Byte := op.extractLsb' 8 8

/-- The byte of a word that stands at the higher address (20_memory.md R42). -/
def wordLo (op : Word) : Byte := op.extractLsb' 0 8

/-- Decode the instruction that a list of bytes begins with, and give the bytes after it. -/
def decodeBytes : List Byte → Except DecodeError (Instr × List Byte)
  | hi :: lo :: rest =>
    match decodeWord (wordOfBytes hi lo) with
    | .ok i => .ok (i, rest)
    | .error e => .error e
  | _ => .error .truncated

/-- A table word as the two bytes in which the hardware stores it: bits at `nbits` and above are 0. -/
def tableBytes (nbits w : Nat) : List Byte :=
  [wordHi (BitVec.ofNat 16 (w % 2 ^ nbits)), wordLo (BitVec.ofNat 16 (w % 2 ^ nbits))]

/-- What the decoder reads from a word numbered as spec/opcode_table.json numbers it. -/
def decodeTableWord (nbits w : Nat) : Option Instr :=
  match decodeBytes (tableBytes nbits w) with
  | .ok (i, _) => some i
  | .error _ => none

/-- Format `A` (R61): family, `nnn`. -/
def encodeA (fam : Nibble) (nnn : Addr) : Word := fam ++ nnn

/-- Formats `XK` and `XS` (R61): family, `x`, a byte that is `kk` or the sub-key. -/
def encodeXK (fam : Nibble) (x : RegIdx) (kk : Byte) : Word := fam ++ x ++ kk

/-- Formats `XY` and `XYN` (R61): family, `x`, `y`, a nibble that is `n`, the sub-key or ignored. -/
def encodeXYN (fam : Nibble) (x y : RegIdx) (n : Nibble) : Word := fam ++ x ++ y ++ n

/-- The word of an instruction (R61, R66), its ignored bits 0 (R68). -/
def encode : Instr → Word
  | .cls => encodeXK 0x0 0 0xE0
  | .ret => encodeXK 0x0 0 0xEE
  | .jp nnn => encodeA 0x1 nnn
  | .call nnn => encodeA 0x2 nnn
  | .seVxKk x kk => encodeXK 0x3 x kk
  | .sneVxKk x kk => encodeXK 0x4 x kk
  | .seVxVy x y => encodeXYN 0x5 x y 0
  | .ldVxKk x kk => encodeXK 0x6 x kk
  | .addVxKk x kk => encodeXK 0x7 x kk
  | .ldVxVy x y => encodeXYN 0x8 x y 0x0
  | .orVxVy x y => encodeXYN 0x8 x y 0x1
  | .andVxVy x y => encodeXYN 0x8 x y 0x2
  | .xorVxVy x y => encodeXYN 0x8 x y 0x3
  | .addVxVy x y => encodeXYN 0x8 x y 0x4
  | .subVxVy x y => encodeXYN 0x8 x y 0x5
  | .shrVx x => encodeXYN 0x8 x 0 0x6
  | .subnVxVy x y => encodeXYN 0x8 x y 0x7
  | .shlVx x => encodeXYN 0x8 x 0 0xE
  | .sneVxVy x y => encodeXYN 0x9 x y 0
  | .ldIAddr nnn => encodeA 0xA nnn
  | .jpV0Addr nnn => encodeA 0xB nnn
  | .rndVxKk x kk => encodeXK 0xC x kk
  | .drwVxVyN x y n => encodeXYN 0xD x y n
  | .skpVx x => encodeXK 0xE x 0x9E
  | .sknpVx x => encodeXK 0xE x 0xA1
  | .ldVxDt x => encodeXK 0xF x 0x07
  | .ldVxK x => encodeXK 0xF x 0x0A
  | .ldDtVx x => encodeXK 0xF x 0x15
  | .ldStVx x => encodeXK 0xF x 0x18
  | .addIVx x => encodeXK 0xF x 0x1E
  | .ldFVx x => encodeXK 0xF x 0x29
  | .ldBVx x => encodeXK 0xF x 0x33
  | .ldMemVx x => encodeXK 0xF x 0x55
  | .ldVxMem x => encodeXK 0xF x 0x65

/-- The instruction's two bytes as memory holds them, high byte first (R60). -/
def encodeBytes (i : Instr) : List Byte := [wordHi (encode i), wordLo (encode i)]

/-- The spelling of a register in a listing: `V` and one hexadecimal digit (R75). -/
def asmReg (x : RegIdx) : String :=
  "V" ++ String.ofList [("0123456789ABCDEF".toList).getD x.toNat '0']

/-- A number in a listing, `w` hexadecimal digits after `0x` (00_scope.md R8). -/
def asmHex (w n : Nat) : String :=
  "0x" ++ String.ofList ((List.range w).map (fun j =>
    ("0123456789ABCDEF".toList).getD (n / 16 ^ (w - 1 - j) % 16) '0'))

/-- The assembler spelling of an instruction (R75); there are no pseudo-instructions (R76). -/
def asmText : Instr → String
  | .cls => "CLS"
  | .ret => "RET"
  | .jp nnn => "JP " ++ asmHex 3 nnn.toNat
  | .call nnn => "CALL " ++ asmHex 3 nnn.toNat
  | .seVxKk x kk => "SE " ++ asmReg x ++ "," ++ asmHex 2 kk.toNat
  | .sneVxKk x kk => "SNE " ++ asmReg x ++ "," ++ asmHex 2 kk.toNat
  | .seVxVy x y => "SE " ++ asmReg x ++ "," ++ asmReg y
  | .ldVxKk x kk => "LD " ++ asmReg x ++ "," ++ asmHex 2 kk.toNat
  | .addVxKk x kk => "ADD " ++ asmReg x ++ "," ++ asmHex 2 kk.toNat
  | .ldVxVy x y => "LD " ++ asmReg x ++ "," ++ asmReg y
  | .orVxVy x y => "OR " ++ asmReg x ++ "," ++ asmReg y
  | .andVxVy x y => "AND " ++ asmReg x ++ "," ++ asmReg y
  | .xorVxVy x y => "XOR " ++ asmReg x ++ "," ++ asmReg y
  | .addVxVy x y => "ADD " ++ asmReg x ++ "," ++ asmReg y
  | .subVxVy x y => "SUB " ++ asmReg x ++ "," ++ asmReg y
  | .shrVx x => "SHR " ++ asmReg x
  | .subnVxVy x y => "SUBN " ++ asmReg x ++ "," ++ asmReg y
  | .shlVx x => "SHL " ++ asmReg x
  | .sneVxVy x y => "SNE " ++ asmReg x ++ "," ++ asmReg y
  | .ldIAddr nnn => "LD I," ++ asmHex 3 nnn.toNat
  | .jpV0Addr nnn => "JP V0," ++ asmHex 3 nnn.toNat
  | .rndVxKk x kk => "RND " ++ asmReg x ++ "," ++ asmHex 2 kk.toNat
  | .drwVxVyN x y n => "DRW " ++ asmReg x ++ "," ++ asmReg y ++ "," ++ asmHex 1 n.toNat
  | .skpVx x => "SKP " ++ asmReg x
  | .sknpVx x => "SKNP " ++ asmReg x
  | .ldVxDt x => "LD " ++ asmReg x ++ ",DT"
  | .ldVxK x => "LD " ++ asmReg x ++ ",K"
  | .ldDtVx x => "LD DT," ++ asmReg x
  | .ldStVx x => "LD ST," ++ asmReg x
  | .addIVx x => "ADD I," ++ asmReg x
  | .ldFVx x => "LD F," ++ asmReg x
  | .ldBVx x => "LD B," ++ asmReg x
  | .ldMemVx x => "LD [I]," ++ asmReg x
  | .ldVxMem x => "LD " ++ asmReg x ++ ",[I]"

end Sys2Proof
end

