-- ==== Sys2Proof/Machine/Params.lean ====
section
/-! DEFINITION. The values this hardware gives the parameters of the model (00_scope.md R7). `ROM` is the argument of
the host command `loadRom`; `Rand` and `TimerRead` are free values in Config. -/

namespace Sys2Proof.Machine

/-- `STACK_DEPTH` (R7, decision D5, log 7). -/
def Params.stackDepth : Nat := 16

/-- `FONT_BASE` (R7, decision D8, log 8). -/
def Params.fontBase : Nat := 0x000

/-- The 16 glyphs of `FONT`, digits 0 to F, five rows each (20_memory.md R45). PRESUMED: the spec supplies the
bytes from general knowledge (log 8). -/
def Params.glyphs : List (List Byte) := [
  [0xF0#8, 0x90#8, 0x90#8, 0x90#8, 0xF0#8],
  [0x20#8, 0x60#8, 0x20#8, 0x20#8, 0x70#8],
  [0xF0#8, 0x10#8, 0xF0#8, 0x80#8, 0xF0#8],
  [0xF0#8, 0x10#8, 0xF0#8, 0x10#8, 0xF0#8],
  [0x90#8, 0x90#8, 0xF0#8, 0x10#8, 0x10#8],
  [0xF0#8, 0x80#8, 0xF0#8, 0x10#8, 0xF0#8],
  [0xF0#8, 0x80#8, 0xF0#8, 0x90#8, 0xF0#8],
  [0xF0#8, 0x10#8, 0x20#8, 0x40#8, 0x40#8],
  [0xF0#8, 0x90#8, 0xF0#8, 0x90#8, 0xF0#8],
  [0xF0#8, 0x90#8, 0xF0#8, 0x10#8, 0xF0#8],
  [0xF0#8, 0x90#8, 0xF0#8, 0x90#8, 0x90#8],
  [0xE0#8, 0x90#8, 0xE0#8, 0x90#8, 0xE0#8],
  [0xF0#8, 0x80#8, 0x80#8, 0x80#8, 0xF0#8],
  [0xE0#8, 0x90#8, 0x90#8, 0x90#8, 0xE0#8],
  [0xF0#8, 0x80#8, 0xF0#8, 0x80#8, 0xF0#8],
  [0xF0#8, 0x80#8, 0xF0#8, 0x80#8, 0x80#8]]

/-- `FONT`, 80 bytes: glyph `d` at `5 * d` (20_memory.md R44, R45). -/
def Params.font : List Byte := Params.glyphs.flatten

/-- `KEY_INDEX_POLICY` (R7, decision D16, log 9). -/
def Params.keyIndexPolicy : Config.KeyIndexPolicy := .lowNibble

/-- `VF_ALIAS_POLICY` (R7, decision D2, log 10). -/
def Params.vfAliasPolicy : Config.VfAliasPolicy := .flagLast

end Sys2Proof.Machine
end

