-- ==== Sys2Proof/Machine/State.lean ====
section
/-! DEFINITION. The state of the core as plain data (10_state.md R10 to R22), the reasons a step or a host command
can stop, and the state right after reset. -/

namespace Sys2Proof.Machine

/-- `RUN`, the engine's state machine (R17). -/
inductive RunState where
  | running
  | paused
  | waitingForKey
  | haltedByError
  deriving DecidableEq, Repr

/-- `ERR.kind` (R19, 60_exceptions.md R160). -/
inductive ErrKind where
  | none
  | outOfBoundsMemoryAccess
  | stackOverflow
  | stackUnderflow
  deriving DecidableEq, Repr

/-- `ERR`, the error record (R19). Which fields mean something for which kind is 60_exceptions.md R165. -/
structure ErrRecord where
  kind : ErrKind
  op : Word
  pc : Word
  addr : FaultAddr
  deriving DecidableEq, Repr

/-- `FB`, the display plane (R15): 32 rows, row 0 first; a row is 64 one-bit cells, column `c` its bit `c`
(log 26). -/
abbrev Plane := Vector (BitVec 64) 32

/-- `MEM` (20_memory.md R40): the bytes that differ from what an unlisted address reads as, addresses strictly
rising (log 11). -/
abbrev Memory := List Host.Cell

/-- Everything the spec gives the machine, and three counters of the model's own. -/
structure State where
  /-- `V[0]` to `V[15]`; `V[15]` is `VF` (R10, R11). -/
  v : Vector Byte 16
  /-- The index register (R12). -/
  i : Word
  /-- The program counter (R13). -/
  pc : Word
  /-- The live entries of the call stack, the last pushed first (R14, log 6). -/
  stk : List Word
  /-- The display plane (R15). -/
  fb : Plane
  /-- The key latch (R16). -/
  keys : Vector Bool 16
  /-- The run state (R17). -/
  run : RunState
  /-- The key-wait destination latch (R18). -/
  kx : RegIdx
  /-- The error record (R19). -/
  err : ErrRecord
  /-- Memory (20_memory.md R40). -/
  mem : Memory
  /-- The retained ROM image (R20, log 11). -/
  rom : List Byte
  /-- The model's own: how many `Rand()` draws were made (log 1). -/
  randDraws : Nat
  /-- The model's own: how many `TimerRead()` draws were made (log 2). -/
  timerDraws : Nat
  /-- The model's own: how many fatal errors were raised (log 3). -/
  errDraws : Nat
  deriving DecidableEq, Repr

/-- Why the machine stops. No step stops so under the parameter values of this hardware: the spec's fatal errors
are entries into `HaltedByError` (60_exceptions.md R165), which are next states. -/
inductive Fault where
  /-- Raised by SKP and SKNP when `V[x]` is above 15 and `KEY_INDEX_POLICY` is `fault`, a setting this hardware does
  not have (45_input_and_timers.md R152). Safe: the machine stops where the other settings go on. -/
  | keyIndexAbove15 (index : Byte)
  deriving DecidableEq, Repr

/-- Why an instruction or a host command has no meaning. -/
inductive Refusal where
  /-- Answered by `exec` for an instruction that has no meaning yet; no arm does. Safe. -/
  | notModelled (mnemonic : String)
  /-- Answered by ADD, SUB, SHR, SUBN and SHL when they name register 15 and `VF_ALIAS_POLICY` is `refuse`, a
  setting this hardware does not have (42_load_and_alu.md R110). Safe: nothing can be proved of those words. -/
  | vfAlias
  /-- Answered by the host command `loadRom` outside the construction state (70_reset_and_hazards.md R195).
  Safe: nothing can be proved of such a launch. -/
  | loadRomNotFirst
  deriving DecidableEq, Repr

/-- The error record with no error in it. Only `kind` is the spec's (R22); the other fields are unspecified and the
model names 0 for them (DESIGN CHOICE, log 5). -/
def ErrRecord.empty : ErrRecord := ⟨.none, 0#16, 0#16, 0#17⟩

/-- The machine right after construction (70_reset_and_hazards.md R190), which is what reset leaves when no ROM
image is retained (R22). `kx` and the three counters are named by the model (DESIGN CHOICE, log 5). -/
def State.reset : State where
  v := Vector.replicate 16 0#8
  i := 0#16
  pc := Config.pcReset
  stk := []
  fb := Vector.replicate 32 0#64
  keys := Vector.replicate 16 false
  run := .running
  kx := 0#4
  err := ErrRecord.empty
  mem := []
  rom := []
  randDraws := 0
  timerDraws := 0
  errDraws := 0

end Sys2Proof.Machine
end

