-- ==== Sys2Proof/Machine/Ops.lean ====
section
/-! DEFINITION. The named operations over memory, registers, stack and display plane, and the entry into
`HaltedByError` (60_exceptions.md R165), which is the one thing an error does. There is no return from it but the
host's `reset()` (R169; Machine/HostCommands.lean). -/

namespace Sys2Proof.Machine

/-! ## Memory (20_memory.md) -/

/-- What an address reads as that memory does not list: its contents at construction, FONT at `FONT_BASE` and zero
elsewhere (20_memory.md R44, 70_reset_and_hazards.md R190). -/
def unlistedByte (a : Nat) : Byte :=
  if Params.fontBase ≤ a then Params.font.getD (a - Params.fontBase) 0#8 else 0#8

/-- `MemRead(a, 1)` (00_scope.md R8). -/
def Memory.read (m : Memory) (a : Nat) : Byte :=
  match m with
  | [] => unlistedByte a
  | (b, w) :: rest => if b = a then w else Memory.read rest a

/-- Put a cell in its place among cells of rising addresses. -/
def Memory.place (m : Memory) (a : Nat) (w : Byte) : Memory :=
  match m with
  | [] => [(a, w)]
  | (b, u) :: rest => if a < b then (a, w) :: (b, u) :: rest else (b, u) :: Memory.place rest a w

/-- `MemWrite(a, 1, w)` (00_scope.md R8): the old cell goes, and a new one is listed only if it differs from what the
unlisted address reads as. -/
def Memory.write (m : Memory) (a : Nat) (w : Byte) : Memory :=
  if w = unlistedByte a then m.filter (fun c => c.1 ≠ a)
  else Memory.place (m.filter (fun c => c.1 ≠ a)) a w

/-- The canonical form: addresses strictly rising, and no cell equal to what its unlisted address reads as. -/
def Memory.wf (m : Memory) : Bool :=
  decide (m.Pairwise (fun c d => c.1 < d.1)) && m.all (fun c => c.2 ≠ unlistedByte c.1)

/-- No cell stands at an address that does not exist (20_memory.md R40). -/
def Memory.inRange (m : Memory) : Bool := m.all (fun c => c.1 < Config.memSize)

/-- `k` bytes at `a, a + 1, …` in ascending order (20_memory.md R49). Addresses are unbounded integers (R48). -/
def Memory.readBytes (m : Memory) (a : Nat) : Nat → List Byte
  | 0 => []
  | k + 1 => m.read a :: Memory.readBytes m (a + 1) k

/-- Store bytes at `a, a + 1, …` in ascending order (20_memory.md R49). -/
def Memory.writeBytes (m : Memory) (a : Nat) : List Byte → Memory
  | [] => m
  | b :: bs => Memory.writeBytes (m.write a b) (a + 1) bs

/-- The word at `a` and `a + 1`, big-endian (20_memory.md R42). -/
def Memory.word (m : Memory) (a : Nat) : Word := wordOfBytes (m.read a) (m.read (a + 1))

/-! ## General registers (10_state.md R10) -/

/-- The number of `VF` (R11). -/
def vfIdx : RegIdx := 15#4

/-- `V[x]`. -/
def State.reg (s : State) (x : RegIdx) : Byte := s.v[x.toNat]'x.isLt

/-- `V[x] <- b`. -/
def State.setReg (s : State) (x : RegIdx) (b : Byte) : State := { s with v := s.v.set x.toNat b x.isLt }

/-- `V[j], V[j + 1], … <- bs`, in ascending order; there is no register above `V[15]`. -/
def loadRegs (v : Vector Byte 16) (j : Nat) : List Byte → Vector Byte 16
  | [] => v
  | b :: bs => loadRegs (v.setIfInBounds j b) (j + 1) bs

/-- `V[0], V[1], …, V[x]`, in ascending order. -/
def State.regsUpTo (s : State) (x : RegIdx) : List Byte := s.v.toList.take (x.toNat + 1)

/-! ## Program counter and index register -/

/-- `PC <- trunc_16(PC + 2)`, the protocol's advance (40_cycle.md R85). -/
def State.advance (s : State) : State := { s with pc := s.pc + 2#16 }

/-- `PC <- target`. -/
def State.jump (s : State) (target : Word) : State := { s with pc := target }

/-- `PC <- trunc_16(PC + 4)` for a taken skip, `PC <- trunc_16(PC + 2)` else (40_cycle.md R85). -/
def State.skipIf (s : State) (taken : Bool) : State := { s with pc := s.pc + (if taken then 4#16 else 2#16) }

/-- `I <- a`. -/
def State.setI (s : State) (a : Word) : State := { s with i := a }

/-! ## Call stack (10_state.md R14) -/

/-- `SP`, the count of live entries. -/
def State.sp (s : State) : Nat := s.stk.length

/-- `STK[j]`, counted from the bottom; a dead entry has no value. -/
def State.stkEntry (s : State) (j : Nat) : Option Word := s.stk.reverse[j]?

/-- `STK[SP] <- w; SP <- SP + 1`. -/
def State.push (s : State) (w : Word) : State := { s with stk := w :: s.stk }

/-- `SP <- SP - 1`. -/
def State.pop (s : State) : State := { s with stk := s.stk.tail }

/-! ## Display plane (10_state.md R15) -/

/-- `FB[row][col]`; no cell exists outside the grid. -/
def Plane.cell (fb : Plane) (row col : Nat) : Bool := (fb[row]?.getD 0#64).getLsbD col

/-- `FB[row][col] <- FB[row][col] xor 1`. -/
def Plane.toggle (fb : Plane) (row col : Nat) : Plane :=
  fb.setIfInBounds row (fb[row]?.getD 0#64 ^^^ BitVec.twoPow 64 col)

/-- `clear()` zeroes every cell (44_display.md R140). -/
def Plane.clear : Plane := Vector.replicate Config.dispH 0#64

/-! ## Key latch (10_state.md R16) -/

/-- `KEYS[k]`; a code above 15 names no key. -/
def State.key (s : State) (k : Nat) : Bool := s.keys[k]?.getD false

/-- `min { k | KEYS[k] = 1 }`, if a key is down (45_input_and_timers.md R154). -/
def State.lowestKey (s : State) : Option Nat := (List.range Config.nKeys).find? (fun k => s.key k)

/-! ## Fatal errors (60_exceptions.md R165) -/

/-- The word the core fetched for the instruction at `PC`. An instruction's meaning is given no word, and none has
written memory when an error is raised, so the word still stands at `PC` (DEDUCED, log 4). -/
def State.fetchedWord (s : State) : Word := s.mem.word s.pc.toNat

/-- `raise kind(addr)`: `ERR` is written, `RUN <- HaltedByError`, nothing else changes (R165). `op` or `addr` is `none`
where the spec leaves that field unspecified; it is then a free value (log 3), and `errDraws` counts on. -/
def State.raise (s : State) (kind : ErrKind) (op : Option Word) (addr : Option FaultAddr) : State :=
  { s with
    run := .haltedByError
    err := ⟨kind, op.getD (Config.errOp s.errDraws), s.pc, addr.getD (Config.errAddr s.errDraws)⟩
    errDraws := s.errDraws + 1 }

/-- An instruction's `raise OutOfBoundsMemoryAccess(a)`. -/
def State.raiseBounds (s : State) (a : FaultAddr) : State :=
  s.raise .outOfBoundsMemoryAccess (some s.fetchedWord) (some a)

/-- An instruction's `raise StackOverflow()` or `raise StackUnderflow()`: `ERR.addr` is unspecified. -/
def State.raiseStack (s : State) (kind : ErrKind) : State := s.raise kind (some s.fetchedWord) none

/-- A fetch fault: no word was fetched, `ERR.op` is unspecified. -/
def State.raiseFetch (s : State) (a : FaultAddr) : State := s.raise .outOfBoundsMemoryAccess none (some a)

/-- The bounds test of a data access of `k` bytes at `I` (20_memory.md R47): the address to report if the range does not
fit. Effective addresses are unbounded integers (R48). -/
def dataFault (i : Word) (k : Nat) : Option FaultAddr :=
  if 0 < k ∧ Config.memTop < i.toNat + k - 1 then some (BitVec.ofNat 17 (max i.toNat Config.memSize)) else none

/-- An instruction that accesses `k` bytes at `I`: the test comes before any effect (20_memory.md R47, 40_cycle.md
R83); if it passes, the effect is `t`. -/
def State.accessing (s : State) (k : Nat) (t : State) : State :=
  match dataFault s.i k with
  | some a => s.raiseBounds a
  | none => t

end Sys2Proof.Machine
end

