-- ==== Sys2Proof/Machine/Flags.lean ====
section
/-! DEFINITION. The flag computations (10_state.md R11, 42_load_and_alu.md R117 to R121): each is a condition, and `VF`
gets 0x00 or 0x01 for it. -/

namespace Sys2Proof.Machine

/-- The value `VF` receives for a condition: strictly 0 or 1 (10_state.md R11). -/
def flagByte (c : Bool) : Byte := if c then 1#8 else 0#8

/-- Carry out of the 8-bit unsigned addition (R117). -/
def carryOut (a b : Byte) : Bool := 0xFF < a.toNat + b.toNat

/-- `a > b`, strict and unsigned: the flag of SUB and of SUBN alike (R118, R120). -/
def greater (a b : Byte) : Bool := b.toNat < a.toNat

/-- `a[0]`, the bit SHR shifts out (R119). -/
def lowBit (a : Byte) : Bool := a.getLsbD 0

/-- `a[7]`, the bit SHL shifts out (R121). -/
def highBit (a : Byte) : Bool := a.getLsbD 7

/-- Write a result and then a flag: where the destination is `VF`, the flag stands (42_load_and_alu.md R110). -/
def State.setResultFlag (s : State) (x : RegIdx) (result : Byte) (flag : Bool) : State :=
  (s.setReg x result).setReg vfIdx (flagByte flag)

/-- The end of a flag-defining arithmetic instruction (R110): result, flag, advance. `named15` says that register 15 is
one of its operands, which the setting `refuse` of `VF_ALIAS_POLICY` gives no meaning. -/
def State.finishFlagged (s : State) (named15 : Bool) (x : RegIdx) (result : Byte) (flag : Bool) :
    Host.Outcome State Fault Refusal :=
  match Params.vfAliasPolicy, named15 with
  | .refuse, true => .refused .vfAlias
  | _, _ => .next (s.setResultFlag x result flag).advance

end Sys2Proof.Machine
end

