-- ==== Sys2Proof/Machine/Operands.lean ====
section
/-! DEFINITION. The operand forms: immediates (30_encoding.md R63), the font address, decimal digits, and the key an
SKP or SKNP tests. -/

namespace Sys2Proof.Machine

/-- `zext_16(nnn)` (30_encoding.md R63). -/
def addrOperand (nnn : Addr) : Word := nnn.setWidth 16

/-- `zext_16(V[x])`, a register added to a 16-bit register (43_index_and_memory.md R131, 41_control_flow.md R98). -/
def State.regWide (s : State) (x : RegIdx) : Word := (s.reg x).setWidth 16

/-- `zext_16(v) * 5`, the full byte (43_index_and_memory.md R132). -/
def glyphAddr (v : Byte) : Word := v.setWidth 16 * 5#16

/-- The hundreds, tens and ones of a byte, one digit a byte (43_index_and_memory.md R133). -/
def bcdDigits (v : Byte) : List Byte :=
  [BitVec.ofNat 8 (v.toNat / 100), BitVec.ofNat 8 (v.toNat / 10 % 10), BitVec.ofNat 8 (v.toNat % 10)]

/-- Which key an SKP or SKNP tests (45_input_and_timers.md R152), for each setting of `KEY_INDEX_POLICY`: whether it is
pressed, or no meaning. `KeyIdx(v) = v[3:0]` under `low_nibble`. -/
def State.keyTest (s : State) (policy : Config.KeyIndexPolicy) (v : Byte) : Except Fault Bool :=
  match policy with
  | .lowNibble => .ok (s.key (v.extractLsb' 0 4).toNat)
  | .notPressed => .ok (if v.toNat ≤ 15 then s.key v.toNat else false)
  | .fault => if v.toNat ≤ 15 then .ok (s.key v.toNat) else .error (.keyIndexAbove15 v)

end Sys2Proof.Machine
end

