-- ==== Sys2Proof/Machine/Alu.lean ====
section
/-! DEFINITION. Register load, arithmetic, logic, shift and random instructions (42_load_and_alu.md R110 to R123). -/

namespace Sys2Proof.Machine

/-- `LD Vx,kk` (R111). -/
def execLdVxKk (x : RegIdx) (kk : Byte) (s : State) : Host.Outcome State Fault Refusal :=
  .next (s.setReg x kk).advance

/-- `ADD Vx,kk` (R112). The carry is discarded. -/
def execAddVxKk (x : RegIdx) (kk : Byte) (s : State) : Host.Outcome State Fault Refusal :=
  .next (s.setReg x (s.reg x + kk)).advance

/-- `LD Vx,Vy` (R113). -/
def execLdVxVy (x y : RegIdx) (s : State) : Host.Outcome State Fault Refusal :=
  .next (s.setReg x (s.reg y)).advance

/-- `OR Vx,Vy` (R114). -/
def execOrVxVy (x y : RegIdx) (s : State) : Host.Outcome State Fault Refusal :=
  .next (s.setReg x (s.reg x ||| s.reg y)).advance

/-- `AND Vx,Vy` (R115). -/
def execAndVxVy (x y : RegIdx) (s : State) : Host.Outcome State Fault Refusal :=
  .next (s.setReg x (s.reg x &&& s.reg y)).advance

/-- `XOR Vx,Vy` (R116). -/
def execXorVxVy (x y : RegIdx) (s : State) : Host.Outcome State Fault Refusal :=
  .next (s.setReg x (s.reg x ^^^ s.reg y)).advance

/-- `ADD Vx,Vy` (R117). -/
def execAddVxVy (x y : RegIdx) (s : State) : Host.Outcome State Fault Refusal :=
  s.finishFlagged (x == vfIdx || y == vfIdx) x (s.reg x + s.reg y) (carryOut (s.reg x) (s.reg y))

/-- `SUB Vx,Vy` (R118). -/
def execSubVxVy (x y : RegIdx) (s : State) : Host.Outcome State Fault Refusal :=
  s.finishFlagged (x == vfIdx || y == vfIdx) x (s.reg x - s.reg y) (greater (s.reg x) (s.reg y))

/-- `SHR Vx` (R119). `V[y]` is neither read nor written. -/
def execShrVx (x : RegIdx) (s : State) : Host.Outcome State Fault Refusal :=
  s.finishFlagged (x == vfIdx) x (s.reg x >>> 1) (lowBit (s.reg x))

/-- `SUBN Vx,Vy` (R120). The flag is SUB's test, not reversed. -/
def execSubnVxVy (x y : RegIdx) (s : State) : Host.Outcome State Fault Refusal :=
  s.finishFlagged (x == vfIdx || y == vfIdx) x (s.reg y - s.reg x) (greater (s.reg x) (s.reg y))

/-- `SHL Vx` (R121). `V[y]` is neither read nor written. -/
def execShlVx (x : RegIdx) (s : State) : Host.Outcome State Fault Refusal :=
  s.finishFlagged (x == vfIdx) x (s.reg x <<< 1) (highBit (s.reg x))

/-- `RND Vx,kk` (R122). One draw, whatever `kk` is (log 1). -/
def execRndVxKk (x : RegIdx) (kk : Byte) (s : State) : Host.Outcome State Fault Refusal :=
  .next ({ s with randDraws := s.randDraws + 1 }.setReg x (Config.rand s.randDraws &&& kk)).advance

end Sys2Proof.Machine
end

