-- ==== Sys2Proof/Machine/Control.lean ====
section
/-! DEFINITION. The control-flow instructions (41_control_flow.md R90 to R100). No transfer checks its target (R100). -/

namespace Sys2Proof.Machine

/-- `RET` (R91). The popped entry is the address of the CALL; the protocol adds 2. -/
def execRet (s : State) : Host.Outcome State Fault Refusal :=
  match s.stk with
  | [] => .next (s.raiseStack .stackUnderflow)
  | t :: _ => .next (s.pop.jump (t + 2#16))

/-- `JP addr` (R92). -/
def execJp (nnn : Addr) (s : State) : Host.Outcome State Fault Refusal :=
  .next (s.jump (addrOperand nnn))

/-- `CALL addr` (R93). It pushes its own address, not the next one's. -/
def execCall (nnn : Addr) (s : State) : Host.Outcome State Fault Refusal :=
  if s.sp < Params.stackDepth then .next ((s.push s.pc).jump (addrOperand nnn))
  else .next (s.raiseStack .stackOverflow)

/-- `SE Vx,kk` (R94). -/
def execSeVxKk (x : RegIdx) (kk : Byte) (s : State) : Host.Outcome State Fault Refusal :=
  .next (s.skipIf (s.reg x == kk))

/-- `SNE Vx,kk` (R95). -/
def execSneVxKk (x : RegIdx) (kk : Byte) (s : State) : Host.Outcome State Fault Refusal :=
  .next (s.skipIf (s.reg x != kk))

/-- `SE Vx,Vy` (R96). -/
def execSeVxVy (x y : RegIdx) (s : State) : Host.Outcome State Fault Refusal :=
  .next (s.skipIf (s.reg x == s.reg y))

/-- `SNE Vx,Vy` (R97). -/
def execSneVxVy (x y : RegIdx) (s : State) : Host.Outcome State Fault Refusal :=
  .next (s.skipIf (s.reg x != s.reg y))

/-- `JP V0,addr` (R98). The register is always `V[0]`; the sum is not reduced modulo 4096. -/
def execJpV0Addr (nnn : Addr) (s : State) : Host.Outcome State Fault Refusal :=
  .next (s.jump (s.regWide 0#4 + addrOperand nnn))

end Sys2Proof.Machine
end

