-- ==== Sys2Proof/Machine/Display.lean ====
section
/-! DEFINITION. The sprite engine and its two instructions (44_display.md R140 to R145). -/

namespace Sys2Proof.Machine

/-- One pixel of a sprite row: bit `7 - c` of the row byte, at column `col + c` and row `row`, both unbounded integers. A
pixel outside the grid is dropped and does not collide (R142, R143). The pair is the plane and `coll`. -/
def drawPixel (col row : Nat) (b : Byte) (p : Plane × Bool) (c : Nat) : Plane × Bool :=
  if b.getLsbD (7 - c) ∧ col + c < Config.dispW ∧ row < Config.dispH then
    (p.1.toggle row (col + c), p.2 || p.1.cell row (col + c))
  else p

/-- One sprite row, 8 pixels from left to right, bit 7 leftmost (R142). -/
def drawByte (col row : Nat) (b : Byte) (p : Plane × Bool) : Plane × Bool :=
  (List.range 8).foldl (drawPixel col row b) p

/-- The rows of a sprite from `row` downwards (R142). -/
def drawRows (col row : Nat) : List Byte → Plane × Bool → Plane × Bool
  | [], p => p
  | b :: bs, p => drawRows col (row + 1) bs (drawByte col row b p)

/-- `draw(originX, originY, spriteBytes)`: the new plane, and whether any cell went from set to unset (R140, R144). -/
def Plane.draw (fb : Plane) (col row : Nat) (bytes : List Byte) : Plane × Bool :=
  drawRows col row bytes (fb, false)

/-- `CLS` (R141). -/
def execCls (s : State) : Host.Outcome State Fault Refusal :=
  .next { s with fb := Plane.clear }.advance

/-- What `DRW` draws when it does not fault: the `n` bytes at `I` at the origin `V[x]`, `V[y]` (R142). -/
def State.spriteDraw (s : State) (x y : RegIdx) (n : Nibble) : Plane × Bool :=
  s.fb.draw (s.reg x).toNat (s.reg y).toNat (s.mem.readBytes s.i.toNat n.toNat)

/-- `DRW Vx,Vy,n` (R142). The registers are read before `VF` is written. -/
def execDrwVxVyN (x y : RegIdx) (n : Nibble) (s : State) : Host.Outcome State Fault Refusal :=
  .next (s.accessing n.toNat
    ({ s with fb := (s.spriteDraw x y n).1 }.setReg vfIdx (flagByte (s.spriteDraw x y n).2)).advance)

end Sys2Proof.Machine
end

