-- ==== Sys2Proof/Machine/Index.lean ====
section
/-! DEFINITION. Index register and memory instructions (43_index_and_memory.md R130 to R136). No memory access changes
`I` (R136). -/

namespace Sys2Proof.Machine

/-- `LD I,addr` (R130). -/
def execLdIAddr (nnn : Addr) (s : State) : Host.Outcome State Fault Refusal :=
  .next (s.setI (addrOperand nnn)).advance

/-- `ADD I,Vx` (R131). Modulo 2^16, no flag. -/
def execAddIVx (x : RegIdx) (s : State) : Host.Outcome State Fault Refusal :=
  .next (s.setI (s.i + s.regWide x)).advance

/-- `LD F,Vx` (R132). -/
def execLdFVx (x : RegIdx) (s : State) : Host.Outcome State Fault Refusal :=
  .next (s.setI (glyphAddr (s.reg x))).advance

/-- Store bytes at `I, I + 1, …` and advance, or raise (20_memory.md R47). -/
def State.storeAtI (s : State) (bytes : List Byte) : State :=
  s.accessing bytes.length { s with mem := s.mem.writeBytes s.i.toNat bytes }.advance

/-- `LD B,Vx` (R133). -/
def execLdBVx (x : RegIdx) (s : State) : Host.Outcome State Fault Refusal :=
  .next (s.storeAtI (bcdDigits (s.reg x)))

/-- `LD [I],Vx` (R134). `x` is the number of the last register stored. -/
def execLdMemVx (x : RegIdx) (s : State) : Host.Outcome State Fault Refusal :=
  .next (s.storeAtI (s.regsUpTo x))

/-- `LD Vx,[I]` (R135). `x` is the number of the last register loaded. -/
def execLdVxMem (x : RegIdx) (s : State) : Host.Outcome State Fault Refusal :=
  .next (s.accessing (x.toNat + 1)
    { s with v := loadRegs s.v 0 (s.mem.readBytes s.i.toNat (x.toNat + 1)) }.advance)

end Sys2Proof.Machine
end

