-- ==== Sys2Proof/Machine/Input.lean ====
section
/-! DEFINITION. Key input and timer-stub instructions (45_input_and_timers.md R150 to R157). -/

namespace Sys2Proof.Machine

/-- `SKP Vx` (R150). -/
def execSkpVx (x : RegIdx) (s : State) : Host.Outcome State Fault Refusal :=
  match s.keyTest Params.keyIndexPolicy (s.reg x) with
  | .ok pressed => .next (s.skipIf pressed)
  | .error f => .fault f

/-- `SKNP Vx` (R151). -/
def execSknpVx (x : RegIdx) (s : State) : Host.Outcome State Fault Refusal :=
  match s.keyTest Params.keyIndexPolicy (s.reg x) with
  | .ok pressed => .next (s.skipIf !pressed)
  | .error f => .fault f

/-- `LD Vx,K` (R153): the cycle that issues the wait. `V[x]` is not written in it, even if a key is down. -/
def execLdVxK (x : RegIdx) (s : State) : Host.Outcome State Fault Refusal :=
  .next { s with kx := x, run := .waitingForKey }.advance

/-- `KeyWaitPoll()` (R154): a cycle that begins in `WaitingForKey`. It fetches nothing and leaves `PC`. -/
def keyWaitPoll (s : State) : State :=
  match s.lowestKey with
  | some k => { s with run := .running }.setReg s.kx (BitVec.ofNat 8 k)
  | none => s

/-- `LD Vx,DT` (R155): the stub delivers an environment draw (log 2). -/
def execLdVxDt (x : RegIdx) (s : State) : Host.Outcome State Fault Refusal :=
  .next ({ s with timerDraws := s.timerDraws + 1 }.setReg x (Config.timerRead s.timerDraws)).advance

/-- `LD DT,Vx` (R156): only `PC` changes. -/
def execLdDtVx (_x : RegIdx) (s : State) : Host.Outcome State Fault Refusal :=
  .next s.advance

/-- `LD ST,Vx` (R157): only `PC` changes. -/
def execLdStVx (_x : RegIdx) (s : State) : Host.Outcome State Fault Refusal :=
  .next s.advance

end Sys2Proof.Machine
end

