-- ==== Sys2Proof/Machine/Cycle.lean ====
section
/-! DEFINITION. The cycle protocol (40_cycle.md R80 to R87): fetch, decode, execute, advance. -/

namespace Sys2Proof.Machine

/-- Fetch (R81, 20_memory.md R46): the word at `PC`, or the first of its two addresses that is out of range. -/
def State.fetch (s : State) : Except FaultAddr Word :=
  if s.pc.toNat < Config.memTop then .ok (s.mem.word s.pc.toNat)
  else .error (if s.pc.toNat = Config.memTop then BitVec.ofNat 17 Config.memSize else s.pc.setWidth 17)

/-- `UnknownNop(op)` (R84): a no-op that still advances. Its event is `unknownOpcodeEvent`. -/
def unknownNop (s : State) : State := s.advance

/-- `ExecOne()` (R81): one instruction, one fatal error, or the unknown-word no-op. -/
def execOne (s : State) : Host.Outcome State Fault Refusal :=
  match s.fetch with
  | .error a => .next (s.raiseFetch a)
  | .ok op =>
    match decodeWord op with
    | .error _ => .next (unknownNop s)
    | .ok i => exec i s

/-- `Cycle()` (R80): what a cycle does depends on `RUN`. -/
def cycle (s : State) : Host.Outcome State Fault Refusal :=
  match s.run with
  | .haltedByError => .next s
  | .paused => .next s
  | .waitingForKey => .next (keyWaitPoll s)
  | .running => execOne s

/-- The event `UnknownOpcode(op)` that `ExecOne()` emits from a state, if any. The event is not state
(60_exceptions.md R163, log 13), so it is computed, not stored. -/
def unknownOpcodeEvent (s : State) : Option Word :=
  match s.fetch with
  | .error _ => none
  | .ok op =>
    match decodeWord op with
    | .error _ => some op
    | .ok _ => none

/-- The event a `cycle()` emits from a state, if any: only a cycle in `Running` executes. -/
def cycleEvent (s : State) : Option Word := if s.run = .running then unknownOpcodeEvent s else none

end Sys2Proof.Machine
end

