-- ==== Sys2Proof/Machine/Step.lean ====
section
/-! DEFINITION. One step of the machine is one `cycle()` the host issues (40_cycle.md R80, log 15). -/

namespace Sys2Proof.Machine

/-- One `cycle()`. -/
def step (s : State) : Host.Outcome State Fault Refusal := cycle s

/-- `s` with a table word stored where the next fetch reads it, and `RUN = Running`, without which a cycle fetches
nothing. It stands for the load of a program from outside (log 12). -/
def State.withFetchWord (s : State) (nbits w : Nat) : State :=
  { s with run := .running, mem := s.mem.writeBytes s.pc.toNat (tableBytes nbits w) }

end Sys2Proof.Machine
end

