-- ==== Sys2Proof/Machine/HostCommands.lean ====
section
/-! DEFINITION. What the host does between cycles (60_exceptions.md R176 to R181, 70_reset_and_hazards.md R190 to R195,
10_state.md R23). Commands and cycles form one total order (00_scope.md R5): a list of `HostAction`. -/

namespace Sys2Proof.Machine

/-- What the host can read (R23). -/
structure Snapshot where
  v : Vector Byte 16
  i : Word
  pc : Word
  fb : Plane
  run : RunState
  err : ErrRecord
  deriving DecidableEq, Repr

/-- The snapshot of a state, taken between cycles (R23). -/
def State.snapshot (s : State) : Snapshot := ⟨s.v, s.i, s.pc, s.fb, s.run, s.err⟩

/-- The number of an error kind (60_exceptions.md R160). -/
def ErrKind.code : ErrKind → Nat
  | .none => 0
  | .outOfBoundsMemoryAccess => 1
  | .stackOverflow => 2
  | .stackUnderflow => 3

/-- `pause()` (R176). -/
def State.pause (s : State) : State :=
  match s.run with
  | .running => { s with run := .paused }
  | .paused => s
  | .waitingForKey => s
  | .haltedByError => s

/-- `resume()` (R177). -/
def State.resume (s : State) : State :=
  match s.run with
  | .paused => { s with run := .running }
  | .running => s
  | .waitingForKey => s
  | .haltedByError => s

/-- `step()` (R178): one instruction while `Paused`. An ordinary instruction leaves `RUN` alone, so `Paused` stays; a
fatal error and `LD Vx,K` write `RUN` themselves. -/
def stepCommand (s : State) : Host.Outcome State Fault Refusal :=
  match s.run with
  | .paused => execOne s
  | .running => .next s
  | .waitingForKey => .next s
  | .haltedByError => .next s

/-- `KEYS[code] <- b` for a code in 0..15, else no effect (R179, R180). -/
def State.setKey (s : State) (code : Nat) (b : Bool) : State :=
  if keyCodeValid code then { s with keys := s.keys.setIfInBounds code b } else s

/-- `setKeyPressed(code)` (R179). -/
def State.setKeyPressed (s : State) (code : Nat) : State := s.setKey code true

/-- `setKeyReleased(code)` (R180). -/
def State.setKeyReleased (s : State) (code : Nat) : State := s.setKey code false

/-- Memory as construction and `loadRom(image)` leave it (10_state.md R22). -/
def Memory.ofRom (image : List Byte) : Memory := Memory.writeBytes [] Config.romBase image

/-- `reset()` (70_reset_and_hazards.md R191): construction values and memory rebuilt from the retained image. The
environment's draws are outside the block and are not rewound. -/
def State.resetCommand (s : State) : State :=
  { State.reset with
    mem := Memory.ofRom s.rom
    rom := s.rom
    randDraws := s.randDraws
    timerDraws := s.timerDraws
    errDraws := s.errDraws }

/-- The copy that a `loadRom` makes: memory from 0x200 and the retained image, nothing else (R192). -/
def State.loadImage (s : State) (bytes : List Byte) : State :=
  { s with rom := bytes, mem := s.mem.writeBytes Config.romBase bytes }

/-- The state is that of construction but for what `pause` and the key commands change: the only state in which the
spec defines `loadRom` (R181, R195). -/
def State.beforeLaunch (s : State) : Bool :=
  decide ({ s with run := .running, keys := State.reset.keys } = State.reset) &&
    (s.run == .running || s.run == .paused)

/-- What a host command answers, beside the state it leaves. -/
inductive Reply where
  /-- The command was carried out. -/
  | done
  /-- A cycle met an unknown word (60_exceptions.md R163). -/
  | unknownOpcode (op : Word)
  /-- `loadRom` refused the image; the prior state is unchanged (60_exceptions.md R166). -/
  | romTooLarge
  /-- The answer of a snapshot query (10_state.md R23). -/
  | view (q : Snapshot)
  deriving DecidableEq, Repr

/-- What the host may do between cycles, a `cycle()` among them (60_exceptions.md R181). -/
inductive HostAction where
  | cycle
  | step
  | pause
  | resume
  | setKeyPressed (code : Nat)
  | setKeyReleased (code : Nat)
  | reset
  | loadRom (bytes : List Byte)
  | query
  deriving DecidableEq, Repr

/-- The reply that carries a cycle's event. -/
def eventReply : Option Word → Reply
  | some op => .unknownOpcode op
  | none => .done

/-- An outcome of the machine with a reply beside its next state. -/
def withReply (o : Host.Outcome State Fault Refusal) (r : Reply) : Host.Outcome (State × Reply) Fault Refusal :=
  match o with
  | .next s => .next (s, r)
  | .fault f => .fault f
  | .refused f => .refused f

/-- One host action (60_exceptions.md R181). -/
def perform (a : HostAction) (s : State) : Host.Outcome (State × Reply) Fault Refusal :=
  match a with
  | .cycle => withReply (Sys2Proof.Machine.cycle s) (eventReply (cycleEvent s))
  | .step =>
    withReply (stepCommand s) (eventReply (if s.run = .paused then unknownOpcodeEvent s else none))
  | .pause => .next (s.pause, .done)
  | .resume => .next (s.resume, .done)
  | .setKeyPressed code => .next (s.setKeyPressed code, .done)
  | .setKeyReleased code => .next (s.setKeyReleased code, .done)
  | .reset => .next (s.resetCommand, .done)
  | .loadRom bytes =>
    if romFits bytes then
      if s.beforeLaunch then .next (s.loadImage bytes, .done) else .refused .loadRomNotFirst
    else .next (s, .romTooLarge)
  | .query => .next (s, .view s.snapshot)

/-- A schedule of host actions in their total order (00_scope.md R5), with the replies in the same order. -/
def performAll : List HostAction → State → Host.Outcome (State × List Reply) Fault Refusal
  | [], s => .next (s, [])
  | a :: as, s =>
    match perform a s with
    | .fault f => .fault f
    | .refused f => .refused f
    | .next (t, r) =>
      match performAll as t with
      | .fault f => .fault f
      | .refused f => .refused f
      | .next (u, rs) => .next (u, r :: rs)

end Sys2Proof.Machine
end

