-- ==== Sys2Proof/Safety.lean ====
section
/-! DEFINITION. The terms claims use: the invariant of the machine (10_state.md R24), what it means to be at rest or to
meet an error, the row of an instruction in the opcode map, and what an instruction leaves unchanged. -/

namespace Sys2Proof

/-- The row of the opcode map an instruction stands for, `(match, mask)`: 30_encoding.md R66 read instruction by
instruction, beside `opcodeMap`, which the decoder reads. -/
def Instr.row : Instr → Word × Word
  | .cls => (0x00E0, 0xF0FF)
  | .ret => (0x00EE, 0xF0FF)
  | .jp _ => (0x1000, 0xF000)
  | .call _ => (0x2000, 0xF000)
  | .seVxKk _ _ => (0x3000, 0xF000)
  | .sneVxKk _ _ => (0x4000, 0xF000)
  | .seVxVy _ _ => (0x5000, 0xF000)
  | .ldVxKk _ _ => (0x6000, 0xF000)
  | .addVxKk _ _ => (0x7000, 0xF000)
  | .ldVxVy _ _ => (0x8000, 0xF00F)
  | .orVxVy _ _ => (0x8001, 0xF00F)
  | .andVxVy _ _ => (0x8002, 0xF00F)
  | .xorVxVy _ _ => (0x8003, 0xF00F)
  | .addVxVy _ _ => (0x8004, 0xF00F)
  | .subVxVy _ _ => (0x8005, 0xF00F)
  | .shrVx _ => (0x8006, 0xF00F)
  | .subnVxVy _ _ => (0x8007, 0xF00F)
  | .shlVx _ => (0x800E, 0xF00F)
  | .sneVxVy _ _ => (0x9000, 0xF000)
  | .ldIAddr _ => (0xA000, 0xF000)
  | .jpV0Addr _ => (0xB000, 0xF000)
  | .rndVxKk _ _ => (0xC000, 0xF000)
  | .drwVxVyN _ _ _ => (0xD000, 0xF000)
  | .skpVx _ => (0xE09E, 0xF0FF)
  | .sknpVx _ => (0xE0A1, 0xF0FF)
  | .ldVxDt _ => (0xF007, 0xF0FF)
  | .ldVxK _ => (0xF00A, 0xF0FF)
  | .ldDtVx _ => (0xF015, 0xF0FF)
  | .ldStVx _ => (0xF018, 0xF0FF)
  | .addIVx _ => (0xF01E, 0xF0FF)
  | .ldFVx _ => (0xF029, 0xF0FF)
  | .ldBVx _ => (0xF033, 0xF0FF)
  | .ldMemVx _ => (0xF055, 0xF0FF)
  | .ldVxMem _ => (0xF065, 0xF0FF)

/-- The operands of an instruction are the fields of a word, by position (30_encoding.md R62): `x` bits 11..8, `y` bits
7..4, `n` bits 3..0, `kk` bits 7..0, `nnn` bits 11..0, said as numbers. -/
def Instr.operandsOf (op : Nat) : Instr → Prop
  | .cls => True
  | .ret => True
  | .jp nnn => nnn.toNat = op % 4096
  | .call nnn => nnn.toNat = op % 4096
  | .seVxKk x kk => x.toNat = op / 256 % 16 ∧ kk.toNat = op % 256
  | .sneVxKk x kk => x.toNat = op / 256 % 16 ∧ kk.toNat = op % 256
  | .seVxVy x y => x.toNat = op / 256 % 16 ∧ y.toNat = op / 16 % 16
  | .ldVxKk x kk => x.toNat = op / 256 % 16 ∧ kk.toNat = op % 256
  | .addVxKk x kk => x.toNat = op / 256 % 16 ∧ kk.toNat = op % 256
  | .ldVxVy x y => x.toNat = op / 256 % 16 ∧ y.toNat = op / 16 % 16
  | .orVxVy x y => x.toNat = op / 256 % 16 ∧ y.toNat = op / 16 % 16
  | .andVxVy x y => x.toNat = op / 256 % 16 ∧ y.toNat = op / 16 % 16
  | .xorVxVy x y => x.toNat = op / 256 % 16 ∧ y.toNat = op / 16 % 16
  | .addVxVy x y => x.toNat = op / 256 % 16 ∧ y.toNat = op / 16 % 16
  | .subVxVy x y => x.toNat = op / 256 % 16 ∧ y.toNat = op / 16 % 16
  | .shrVx x => x.toNat = op / 256 % 16
  | .subnVxVy x y => x.toNat = op / 256 % 16 ∧ y.toNat = op / 16 % 16
  | .shlVx x => x.toNat = op / 256 % 16
  | .sneVxVy x y => x.toNat = op / 256 % 16 ∧ y.toNat = op / 16 % 16
  | .ldIAddr nnn => nnn.toNat = op % 4096
  | .jpV0Addr nnn => nnn.toNat = op % 4096
  | .rndVxKk x kk => x.toNat = op / 256 % 16 ∧ kk.toNat = op % 256
  | .drwVxVyN x y n => x.toNat = op / 256 % 16 ∧ y.toNat = op / 16 % 16 ∧ n.toNat = op % 16
  | .skpVx x => x.toNat = op / 256 % 16
  | .sknpVx x => x.toNat = op / 256 % 16
  | .ldVxDt x => x.toNat = op / 256 % 16
  | .ldVxK x => x.toNat = op / 256 % 16
  | .ldDtVx x => x.toNat = op / 256 % 16
  | .ldStVx x => x.toNat = op / 256 % 16
  | .addIVx x => x.toNat = op / 256 % 16
  | .ldFVx x => x.toNat = op / 256 % 16
  | .ldBVx x => x.toNat = op / 256 % 16
  | .ldMemVx x => x.toNat = op / 256 % 16
  | .ldVxMem x => x.toNat = op / 256 % 16

/-- The bits of a word that an instruction uses; the others are ignored (30_encoding.md R68). -/
def Instr.usedBits : Instr → Word
  | .cls => 0xF0FF
  | .ret => 0xF0FF
  | .seVxVy _ _ => 0xFFF0
  | .sneVxVy _ _ => 0xFFF0
  | .shrVx _ => 0xFF0F
  | .shlVx _ => 0xFF0F
  | .jp _ => 0xFFFF
  | .call _ => 0xFFFF
  | .seVxKk _ _ => 0xFFFF
  | .sneVxKk _ _ => 0xFFFF
  | .ldVxKk _ _ => 0xFFFF
  | .addVxKk _ _ => 0xFFFF
  | .ldVxVy _ _ => 0xFFFF
  | .orVxVy _ _ => 0xFFFF
  | .andVxVy _ _ => 0xFFFF
  | .xorVxVy _ _ => 0xFFFF
  | .addVxVy _ _ => 0xFFFF
  | .subVxVy _ _ => 0xFFFF
  | .subnVxVy _ _ => 0xFFFF
  | .ldIAddr _ => 0xFFFF
  | .jpV0Addr _ => 0xFFFF
  | .rndVxKk _ _ => 0xFFFF
  | .drwVxVyN _ _ _ => 0xFFFF
  | .skpVx _ => 0xFFFF
  | .sknpVx _ => 0xFFFF
  | .ldVxDt _ => 0xFFFF
  | .ldVxK _ => 0xFFFF
  | .ldDtVx _ => 0xFFFF
  | .ldStVx _ => 0xFFFF
  | .addIVx _ => 0xFFFF
  | .ldFVx _ => 0xFFFF
  | .ldBVx _ => 0xFFFF
  | .ldMemVx _ => 0xFFFF
  | .ldVxMem _ => 0xFFFF

/-- The instruction names `r` as a register it writes (its destination, or one of the range `LD Vx,[I]` loads). The load
of `LD Vx,K` is written by a later cycle. -/
def Instr.namesDest (r : RegIdx) : Instr → Prop
  | .ldVxKk x _ => r = x
  | .addVxKk x _ => r = x
  | .ldVxVy x _ => r = x
  | .orVxVy x _ => r = x
  | .andVxVy x _ => r = x
  | .xorVxVy x _ => r = x
  | .addVxVy x _ => r = x
  | .subVxVy x _ => r = x
  | .shrVx x => r = x
  | .subnVxVy x _ => r = x
  | .shlVx x => r = x
  | .rndVxKk x _ => r = x
  | .ldVxDt x => r = x
  | .ldVxMem x => r.toNat ≤ x.toNat
  | .cls => False
  | .ret => False
  | .jp _ => False
  | .call _ => False
  | .seVxKk _ _ => False
  | .sneVxKk _ _ => False
  | .seVxVy _ _ => False
  | .sneVxVy _ _ => False
  | .ldIAddr _ => False
  | .jpV0Addr _ => False
  | .drwVxVyN _ _ _ => False
  | .skpVx _ => False
  | .sknpVx _ => False
  | .ldVxK _ => False
  | .ldDtVx _ => False
  | .ldStVx _ => False
  | .addIVx _ => False
  | .ldFVx _ => False
  | .ldBVx _ => False
  | .ldMemVx _ => False

/-- The six instructions that write `VF` as a flag (10_state.md R11). -/
def Instr.definesFlag (i : Instr) : Prop :=
  (∃ x y, i = .addVxVy x y) ∨ (∃ x y, i = .subVxVy x y) ∨ (∃ x y, i = .subnVxVy x y) ∨ (∃ x, i = .shrVx x) ∨
    (∃ x, i = .shlVx x) ∨ (∃ x y n, i = .drwVxVyN x y n)

end Sys2Proof

namespace Sys2Proof.Machine

/-- The invariant of 10_state.md R24 in the model's terms: memory is in canonical form and inside the address space, the
retained image is one `loadRom` accepts, `PC` is at most 0x10FE, the stack holds at most `STACK_DEPTH` entries, each at
most 0xFFE, and a halted core has recorded an error. -/
structure Inv (s : State) : Prop where
  memWf : s.mem.wf = true
  memInRange : s.mem.inRange = true
  romFits : romFits s.rom = true
  pcBound : s.pc.toNat ≤ 0x10FE
  spBound : s.sp ≤ Params.stackDepth
  stkBound : ∀ w ∈ s.stk, w.toNat ≤ 0xFFE
  haltedHasError : s.run = .haltedByError → s.err.kind ≠ .none

/-- `s` is at rest: the next instruction jumps to itself, the halt idiom (40_cycle.md R88). -/
def AtRest (s : State) : Prop :=
  s.run = .running ∧ s.pc.toNat < Config.memTop ∧ (s.mem.word s.pc.toNat).toNat = 0x1000 + s.pc.toNat

/-- The data range of `k` bytes at `I` lies inside memory: `dataFault` finds nothing (20_memory.md R47). -/
def RangeOk (s : State) (k : Nat) : Prop := k = 0 ∨ s.i.toNat + k ≤ 0x1000

/-! ## What stays the same from `s` to `t` -/

/-- Every register outside `w` (10_state.md R10). -/
def SameRegsBut (w : List RegIdx) (s t : State) : Prop := ∀ r, r ∉ w → t.reg r = s.reg r

/-- Every byte of memory (20_memory.md R40). -/
def SameMem (s t : State) : Prop := ∀ a, t.mem.read a = s.mem.read a

/-- Every byte of memory outside the `k` bytes from `b` on. -/
def SameMemBut (b k : Nat) (s t : State) : Prop := ∀ a, (a < b ∨ b + k ≤ a) → t.mem.read a = s.mem.read a

/-- Every cell of the display plane (10_state.md R15). -/
def SamePlane (s t : State) : Prop := ∀ row col, t.fb.cell row col = s.fb.cell row col

/-- Every entry of the call stack, and `SP` (10_state.md R14). -/
def SameStack (s t : State) : Prop := t.sp = s.sp ∧ ∀ j, t.stkEntry j = s.stkEntry j

/-- The key latch (10_state.md R16). -/
def SameKeys (s t : State) : Prop := ∀ k, t.key k = s.key k

/-- The run state, the wait latch and the error record (10_state.md R17 to R19). -/
def SameControl (s t : State) : Prop := t.run = s.run ∧ t.kx = s.kx ∧ t.err = s.err

/-- The retained image (10_state.md R20). -/
def SameRom (s t : State) : Prop := t.rom = s.rom

/-- The environment's draws: none was made (00_scope.md R7). -/
def SameDraws (s t : State) : Prop :=
  t.randDraws = s.randDraws ∧ t.timerDraws = s.timerDraws ∧ t.errDraws = s.errDraws

/-- Keys, run state, latch, error record and image: what no arithmetic, memory or jump instruction touches. -/
def SameSystem (s t : State) : Prop := SameKeys s t ∧ SameControl s t ∧ SameRom s t

/-- All state but the registers in `w`, `PC` and the draws: the frame of an instruction that writes registers only. -/
def FrameRegs (w : List RegIdx) (s t : State) : Prop :=
  SameRegsBut w s t ∧ t.i = s.i ∧ SameMem s t ∧ SamePlane s t ∧ SameStack s t ∧ SameSystem s t

/-- All state but `I` and `PC`: the frame of an instruction that writes `I` only. -/
def FrameIndex (s t : State) : Prop :=
  SameRegsBut [] s t ∧ SameMem s t ∧ SamePlane s t ∧ SameStack s t ∧ SameSystem s t ∧ SameDraws s t

/-- All state but the stack and `PC`: the frame of `CALL` and `RET`. -/
def FrameStack (s t : State) : Prop :=
  SameRegsBut [] s t ∧ t.i = s.i ∧ SameMem s t ∧ SamePlane s t ∧ SameSystem s t ∧ SameDraws s t

/-- All state but the `k` bytes of memory from `b` on and `PC`: the frame of a store. -/
def FrameStore (b k : Nat) (s t : State) : Prop :=
  SameRegsBut [] s t ∧ t.i = s.i ∧ SameMemBut b k s t ∧ SamePlane s t ∧ SameStack s t ∧ SameSystem s t ∧ SameDraws s t

/-- All state but the display plane, the registers in `w` and `PC`: the frame of `CLS` and `DRW`. -/
def FramePlane (w : List RegIdx) (s t : State) : Prop :=
  SameRegsBut w s t ∧ t.i = s.i ∧ SameMem s t ∧ SameStack s t ∧ SameSystem s t ∧ SameDraws s t

/-- All state but `RUN` and `ERR`, `PC` included: what a fatal error leaves (60_exceptions.md R165). -/
def FrameError (s t : State) : Prop :=
  SameRegsBut [] s t ∧ t.i = s.i ∧ t.pc = s.pc ∧ SameMem s t ∧ SamePlane s t ∧ SameStack s t ∧ SameKeys s t ∧
    t.kx = s.kx ∧ SameRom s t ∧ t.randDraws = s.randDraws ∧ t.timerDraws = s.timerDraws

/-- `t` is `s` after `raise kind` at the instruction at `PC` whose fetched word is `op`, with the fields the spec gives
for that kind (60_exceptions.md R165): `addr` is `none` where it gives no `ERR.addr`. -/
def Raised (kind : ErrKind) (addr : Option Nat) (s t : State) : Prop :=
  t.run = .haltedByError ∧ t.err.kind = kind ∧ t.err.pc = s.pc ∧ t.err.op = s.mem.word s.pc.toNat ∧
    (∀ a, addr = some a → t.err.addr.toNat = a) ∧ FrameError s t

/-- The bit of the sprite that `DRW Vx,Vy,n` puts on cell `(row, col)`: the byte of that row, `MEM[I + (row - Y)]`, has the
bit of that column set, bit 7 leftmost, where the origin is `X = V[x]`, `Y = V[y]` (44_display.md R142). -/
def State.spriteBit (s : State) (x y : RegIdx) (n : Nibble) (row col : Nat) : Bool :=
  decide ((s.reg y).toNat ≤ row) && decide (row < (s.reg y).toNat + n.toNat) &&
    decide ((s.reg x).toNat ≤ col) && decide (col < (s.reg x).toNat + 8) &&
    (s.mem.read (s.i.toNat + (row - (s.reg y).toNat))).getLsbD (7 - (col - (s.reg x).toNat))

/-- Some set bit of the sprite falls, inside the grid, on a cell that is set (44_display.md R144). -/
def State.collides (s : State) (x y : RegIdx) (n : Nibble) : Prop :=
  ∃ row col, row < 32 ∧ col < 64 ∧ s.spriteBit x y n row col = true ∧ s.fb.cell row col = true

end Sys2Proof.Machine
end

