-- ==== Sys2Proof/Certificates/Slice0/Obligations.lean ====
section
/-! DEFINITION. The statements for the provers, from the numbered rules of spec/. -/

open Sys2Proof Sys2Proof.Machine

/-- With a live entry, RET answers a next state whose PC is STK[SP-1] + 2 and whose SP is one less, the entries
below unchanged, all else unchanged. With SP = 0 it halts with StackUnderflow and nothing changes but RUN and
ERR. (R91) -/
def Obligations.RetReturnsPastTheCall : Prop :=
  ∀ s : State,
    (0 < s.sp → ∃ t e, exec .ret s = .next t ∧ s.stkEntry (s.sp - 1) = some e ∧ t.pc = e + 2#16 ∧
      t.sp = s.sp - 1 ∧ (∀ j, j < t.sp → t.stkEntry j = s.stkEntry j) ∧ FrameStack s t) ∧
    (s.sp = 0 → ∃ t, exec .ret s = .next t ∧ t.run = .haltedByError ∧ t.err.kind = .stackUnderflow ∧
      FrameError s t)

/-- For every nnn and every state JP answers a next state whose PC is nnn zero-extended; registers, I, memory,
display, stack and control state are unchanged. (R92) -/
def Obligations.JpGoesToItsAddress : Prop :=
  ∀ (nnn : Addr) (s : State), ∃ t, exec (.jp nnn) s = .next t ∧ t.pc.toNat = nnn.toNat ∧ FrameRegs [] s t ∧
    SameDraws s t

/-- With SP below STACK_DEPTH, CALL answers a next state with STK[SP] the address of the CALL, SP one more and PC =
nnn, all else unchanged. With SP = STACK_DEPTH it halts with StackOverflow; nothing is pushed and PC is
unchanged. The depth is the parameter STACK_DEPTH, whose value 16 is the spec's choice (log 7). (R93) -/
def Obligations.CallPushesItsOwnAddress : Prop :=
  ∀ (nnn : Addr) (s : State),
    (s.sp < Params.stackDepth → ∃ t, exec (.call nnn) s = .next t ∧ t.pc.toNat = nnn.toNat ∧ t.sp = s.sp + 1 ∧
      t.stkEntry s.sp = some s.pc ∧ (∀ j, j < s.sp → t.stkEntry j = s.stkEntry j) ∧ FrameStack s t) ∧
    (s.sp = Params.stackDepth → ∃ t, exec (.call nnn) s = .next t ∧ t.run = .haltedByError ∧
      t.err.kind = .stackOverflow ∧ FrameError s t)

/-- SE Vx,kk answers a next state with PC + 4 if V[x] = kk, else PC + 2. SNE Vx,kk the other way round. Nothing else
changes, for every x, VF included. (R94, R95) -/
def Obligations.ImmediateSkips : Prop :=
  ∀ (x : RegIdx) (kk : Byte) (s : State),
    (∃ t, exec (.seVxKk x kk) s = .next t ∧ t.pc = (if s.reg x = kk then s.pc + 4#16 else s.pc + 2#16) ∧
      FrameRegs [] s t ∧ SameDraws s t) ∧
    (∃ t, exec (.sneVxKk x kk) s = .next t ∧ t.pc = (if s.reg x = kk then s.pc + 2#16 else s.pc + 4#16) ∧
      FrameRegs [] s t ∧ SameDraws s t)

/-- SE Vx,Vy answers a next state with PC + 4 if V[x] = V[y], else PC + 2. SNE Vx,Vy the other way round. With x = y
SE always skips and SNE never does. Nothing else changes. (R96, R97) -/
def Obligations.RegisterSkips : Prop :=
  ∀ (x y : RegIdx) (s : State),
    (∃ t, exec (.seVxVy x y) s = .next t ∧ t.pc = (if s.reg x = s.reg y then s.pc + 4#16 else s.pc + 2#16) ∧
      FrameRegs [] s t ∧ SameDraws s t) ∧
    (∃ t, exec (.sneVxVy x y) s = .next t ∧ t.pc = (if s.reg x = s.reg y then s.pc + 2#16 else s.pc + 4#16) ∧
      FrameRegs [] s t ∧ SameDraws s t)

/-- For every nnn and every state JP V0,addr answers a next state whose PC, as a number, is V[0] + nnn (0 to 0x10FE,
no wrap). Nothing else changes. (R98) -/
def Obligations.JpV0AddsWithoutReduction : Prop :=
  ∀ (nnn : Addr) (s : State), ∃ t, exec (.jpV0Addr nnn) s = .next t ∧
    t.pc.toNat = (s.reg 0#4).toNat + nnn.toNat ∧ FrameRegs [] s t ∧ SameDraws s t

/-- LD Vx,kk answers a next state with V[x] = kk. LD Vx,Vy answers one with V[x] the old V[y]. PC moves by 2; every
other register (VF unless x = 15), I, memory, display, stack and control state are unchanged. (R111, R113) -/
def Obligations.PlainLoadsWriteTheirDestination : Prop :=
  ∀ (x y : RegIdx) (kk : Byte) (s : State),
    (∃ t, exec (.ldVxKk x kk) s = .next t ∧ t.reg x = kk ∧ t.pc = s.pc + 2#16 ∧ FrameRegs [x] s t ∧
      SameDraws s t) ∧
    (∃ t, exec (.ldVxVy x y) s = .next t ∧ t.reg x = s.reg y ∧ t.pc = s.pc + 2#16 ∧ FrameRegs [x] s t ∧
      SameDraws s t)

/-- ADD Vx,kk answers a next state with V[x] = (V[x] + kk) mod 256 and PC + 2; every other register is unchanged, VF
among them. That VF is unchanged is the spec's decision D26 (log 23). (42_load_and_alu.md R112,
92_eei_decisions.md D26) -/
def Obligations.AddImmediateWrapsWithoutFlag : Prop :=
  ∀ (x : RegIdx) (kk : Byte) (s : State), ∃ t, exec (.addVxKk x kk) s = .next t ∧
    (t.reg x).toNat = ((s.reg x).toNat + kk.toNat) % 256 ∧ t.pc = s.pc + 2#16 ∧ FrameRegs [x] s t ∧
    SameDraws s t

/-- Each answers a next state in which every bit of V[x] is the or, and, exclusive or of the old bits of V[x] and
V[y]; PC + 2; every other register is unchanged, VF among them. That VF is unchanged is the spec's decision D26
(log 23). (42_load_and_alu.md R114, 42_load_and_alu.md R115, 42_load_and_alu.md R116, 92_eei_decisions.md D26) -/
def Obligations.LogicCombinesBitByBit : Prop :=
  ∀ (x y : RegIdx) (s : State),
    (∃ t, exec (.orVxVy x y) s = .next t ∧
      (∀ j, (t.reg x).getLsbD j = ((s.reg x).getLsbD j || (s.reg y).getLsbD j)) ∧ t.pc = s.pc + 2#16 ∧
      FrameRegs [x] s t ∧ SameDraws s t) ∧
    (∃ t, exec (.andVxVy x y) s = .next t ∧
      (∀ j, (t.reg x).getLsbD j = ((s.reg x).getLsbD j && (s.reg y).getLsbD j)) ∧ t.pc = s.pc + 2#16 ∧
      FrameRegs [x] s t ∧ SameDraws s t) ∧
    (∃ t, exec (.xorVxVy x y) s = .next t ∧
      (∀ j, (t.reg x).getLsbD j = ((s.reg x).getLsbD j ^^ (s.reg y).getLsbD j)) ∧ t.pc = s.pc + 2#16 ∧
      FrameRegs [x] s t ∧ SameDraws s t)

/-- ADD Vx,Vy answers a next state with V[x] = (V[x] + V[y]) mod 256 for x other than 15, and VF = 1 if the sum
exceeds 0xFF, else 0, whatever x and y are. PC + 2, all else unchanged. Register 15 as an operand follows the
spec's decision D2 (log 10): operands are read first, the flag is written last. (42_load_and_alu.md R117,
42_load_and_alu.md R110, 92_eei_decisions.md D2) -/
def Obligations.AddSetsCarry : Prop :=
  ∀ (x y : RegIdx) (s : State), ∃ t, exec (.addVxVy x y) s = .next t ∧
    (x ≠ 15#4 → (t.reg x).toNat = ((s.reg x).toNat + (s.reg y).toNat) % 256) ∧
    (t.reg 15#4).toNat = (if 0xFF < (s.reg x).toNat + (s.reg y).toNat then 1 else 0) ∧
    t.pc = s.pc + 2#16 ∧ FrameRegs [x, 15#4] s t ∧ SameDraws s t

/-- SUB Vx,Vy answers a next state with V[x] = (V[x] - V[y]) mod 256 for x other than 15, and VF = 1 exactly when
the old V[x] is greater than the old V[y], so 0 for equal operands. PC + 2, all else unchanged. Register 15 as
an operand follows the spec's decision D2 (log 10): operands are read first, the flag is written last.
(42_load_and_alu.md R118, 42_load_and_alu.md R110, 92_eei_decisions.md D2) -/
def Obligations.SubSetsStrictGreater : Prop :=
  ∀ (x y : RegIdx) (s : State), ∃ t, exec (.subVxVy x y) s = .next t ∧
    (x ≠ 15#4 → (t.reg x).toNat = ((s.reg x).toNat + 256 - (s.reg y).toNat) % 256) ∧
    (t.reg 15#4).toNat = (if (s.reg y).toNat < (s.reg x).toNat then 1 else 0) ∧
    t.pc = s.pc + 2#16 ∧ FrameRegs [x, 15#4] s t ∧ SameDraws s t

/-- SHR Vx answers a next state with V[x] = V[x] / 2 for x other than 15, and VF = bit 0 of the old V[x]. No other
register is read or written. PC + 2, all else unchanged. Register 15 as an operand follows the spec's decision
D2 (log 10): operands are read first, the flag is written last. (42_load_and_alu.md R119, 42_load_and_alu.md
R110, 92_eei_decisions.md D2) -/
def Obligations.ShrGivesLowBit : Prop :=
  ∀ (x : RegIdx) (s : State), ∃ t, exec (.shrVx x) s = .next t ∧
    (x ≠ 15#4 → (t.reg x).toNat = (s.reg x).toNat / 2) ∧
    (t.reg 15#4).toNat = ((s.reg x).toNat % 2) ∧
    t.pc = s.pc + 2#16 ∧ FrameRegs [x, 15#4] s t ∧ SameDraws s t

/-- SUBN Vx,Vy answers a next state with V[x] = (V[y] - V[x]) mod 256 for x other than 15, and VF = 1 exactly when
the old V[x] is greater than the old V[y]: SUB's test, not reversed. PC + 2, all else unchanged. Register 15 as
an operand follows the spec's decision D2 (log 10): operands are read first, the flag is written last.
(42_load_and_alu.md R120, 42_load_and_alu.md R110, 92_eei_decisions.md D2) -/
def Obligations.SubnKeepsSubsTest : Prop :=
  ∀ (x y : RegIdx) (s : State), ∃ t, exec (.subnVxVy x y) s = .next t ∧
    (x ≠ 15#4 → (t.reg x).toNat = ((s.reg y).toNat + 256 - (s.reg x).toNat) % 256) ∧
    (t.reg 15#4).toNat = (if (s.reg y).toNat < (s.reg x).toNat then 1 else 0) ∧
    t.pc = s.pc + 2#16 ∧ FrameRegs [x, 15#4] s t ∧ SameDraws s t

/-- SHL Vx answers a next state with V[x] = 2 V[x] mod 256 for x other than 15, and VF = bit 7 of the old V[x], as 0
or 1. No other register is read or written. PC + 2, all else unchanged. Register 15 as an operand follows the
spec's decision D2 (log 10): operands are read first, the flag is written last. (42_load_and_alu.md R121,
42_load_and_alu.md R110, 92_eei_decisions.md D2) -/
def Obligations.ShlGivesHighBit : Prop :=
  ∀ (x : RegIdx) (s : State), ∃ t, exec (.shlVx x) s = .next t ∧
    (x ≠ 15#4 → (t.reg x).toNat = 2 * (s.reg x).toNat % 256) ∧
    (t.reg 15#4).toNat = ((s.reg x).toNat / 128) ∧
    t.pc = s.pc + 2#16 ∧ FrameRegs [x, 15#4] s t ∧ SameDraws s t

/-- RND Vx,kk answers a next state in which V[x] is the next Rand() draw, whatever it is, masked by kk, so no bit
outside kk is set; exactly one draw was made. PC + 2, all else unchanged. The draw is a free value (decision
D15, log 1). (42_load_and_alu.md R122, 92_eei_decisions.md D15) -/
def Obligations.RndMasksOneDraw : Prop :=
  ∀ (x : RegIdx) (kk : Byte) (s : State), ∃ t, exec (.rndVxKk x kk) s = .next t ∧
    t.reg x = Config.rand s.randDraws &&& kk ∧ (∀ j, kk.getLsbD j = false → (t.reg x).getLsbD j = false) ∧
    t.pc = s.pc + 2#16 ∧ FrameRegs [x] s t ∧
    t.randDraws = s.randDraws + 1 ∧ t.timerDraws = s.timerDraws ∧ t.errDraws = s.errDraws

/-- For every nnn and every state LD I,addr answers a next state with I = nnn zero-extended and PC + 2; registers,
memory, display, stack and control state are unchanged. (R130) -/
def Obligations.LdILoadsTheAddress : Prop :=
  ∀ (nnn : Addr) (s : State), ∃ t, exec (.ldIAddr nnn) s = .next t ∧ t.i.toNat = nnn.toNat ∧
    t.pc = s.pc + 2#16 ∧ FrameIndex s t

/-- ADD I,Vx answers a next state with I = (I + V[x]) mod 65536 and PC + 2; every register, VF included, memory,
display, stack and control state are unchanged. The wrap and the untouched VF are decisions D7 and D26 (log 23).
(43_index_and_memory.md R131, 92_eei_decisions.md D7, 92_eei_decisions.md D26) -/
def Obligations.AddIWrapsWithoutFlag : Prop :=
  ∀ (x : RegIdx) (s : State), ∃ t, exec (.addIVx x) s = .next t ∧
    t.i.toNat = (s.i.toNat + (s.reg x).toNat) % 65536 ∧ t.pc = s.pc + 2#16 ∧ FrameIndex s t

/-- LD F,Vx answers a next state with I = 5 V[x], the full byte, and PC + 2; all else unchanged. That the byte is
not masked is decision D9 (log 23). (43_index_and_memory.md R132, 92_eei_decisions.md D9) -/
def Obligations.LdFPointsAtTheGlyph : Prop :=
  ∀ (x : RegIdx) (s : State), ∃ t, exec (.ldFVx x) s = .next t ∧ t.i.toNat = (s.reg x).toNat * 5 ∧
    t.pc = s.pc + 2#16 ∧ FrameIndex s t

/-- With I + 2 at most 0xFFF, LD B,Vx answers a next state whose bytes at I, I+1, I+2 are V[x] / 100, (V[x] / 10)
mod 10, V[x] mod 10, every byte outside them unchanged, PC + 2, I and all else unchanged. Otherwise it halts
with OutOfBoundsMemoryAccess at max(I, 0x1000) and no byte is written. (R133) -/
def Obligations.LdBStoresThreeDigits : Prop :=
  ∀ (x : RegIdx) (s : State),
    (s.i.toNat + 2 ≤ 0xFFF → ∃ t, exec (.ldBVx x) s = .next t ∧
      (t.mem.read s.i.toNat).toNat = (s.reg x).toNat / 100 ∧
      (t.mem.read (s.i.toNat + 1)).toNat = (s.reg x).toNat / 10 % 10 ∧
      (t.mem.read (s.i.toNat + 2)).toNat = (s.reg x).toNat % 10 ∧
      t.pc = s.pc + 2#16 ∧ FrameStore s.i.toNat 3 s t) ∧
    (0xFFF < s.i.toNat + 2 → ∃ t, exec (.ldBVx x) s = .next t ∧ t.run = .haltedByError ∧
      t.err.kind = .outOfBoundsMemoryAccess ∧ t.err.addr.toNat = max s.i.toNat 0x1000 ∧ FrameError s t)

/-- With I + x at most 0xFFF, LD [I],Vx answers a next state in which the byte at I + r is V[r] for every r up to x,
every byte outside those x + 1 is unchanged, PC + 2, I and all else unchanged. That I is unchanged is decision
D28 (log 23). (43_index_and_memory.md R134, 92_eei_decisions.md D28) -/
def Obligations.LdMemStoresTheRegisters : Prop :=
  ∀ (x : RegIdx) (s : State), s.i.toNat + x.toNat ≤ 0xFFF → ∃ t, exec (.ldMemVx x) s = .next t ∧
    (∀ r : RegIdx, r.toNat ≤ x.toNat → t.mem.read (s.i.toNat + r.toNat) = s.reg r) ∧
    t.pc = s.pc + 2#16 ∧ FrameStore s.i.toNat (x.toNat + 1) s t

/-- With I + x at most 0xFFF, LD Vx,[I] answers a next state in which V[r] is the byte at I + r for every r up to x
and unchanged above x (VF is plain data when x = 15), PC + 2, I, memory and all else unchanged. That I is
unchanged is decision D28 (log 23). (43_index_and_memory.md R135, 92_eei_decisions.md D28) -/
def Obligations.LdVxMemLoadsTheRegisters : Prop :=
  ∀ (x : RegIdx) (s : State), s.i.toNat + x.toNat ≤ 0xFFF → ∃ t, exec (.ldVxMem x) s = .next t ∧
    (∀ r : RegIdx, t.reg r = if r.toNat ≤ x.toNat then s.mem.read (s.i.toNat + r.toNat) else s.reg r) ∧
    t.pc = s.pc + 2#16 ∧ t.i = s.i ∧ SameMem s t ∧ SamePlane s t ∧ SameStack s t ∧ SameSystem s t ∧
    SameDraws s t

/-- For LD B (3 bytes), LD [I],Vx and LD Vx,[I] (x + 1 bytes) and DRW (n bytes, n > 0): if the last address exceeds
0xFFF the instruction halts the core with ERR = (OutOfBoundsMemoryAccess, the fetched word, PC, max(I, 0x1000)),
and no register, byte, cell or PC changes. The whole-range test, the address and the absence of partial effects
are decisions D4 and D13 (log 19); ERR.op is read where the word was fetched (log 4). (20_memory.md R47,
60_exceptions.md R161, 60_exceptions.md R165, 92_eei_decisions.md D4, 92_eei_decisions.md D13,
92_eei_decisions.md D22) -/
def Obligations.OutOfRangeDataHaltsWithoutEffect : Prop :=
  ∀ (x y : RegIdx) (n : Nibble) (s : State),
    (0xFFF < s.i.toNat + 2 → ∃ t, exec (.ldBVx x) s = .next t ∧
      Raised .outOfBoundsMemoryAccess (some (max s.i.toNat 0x1000)) s t) ∧
    (0xFFF < s.i.toNat + x.toNat → ∃ t, exec (.ldMemVx x) s = .next t ∧
      Raised .outOfBoundsMemoryAccess (some (max s.i.toNat 0x1000)) s t) ∧
    (0xFFF < s.i.toNat + x.toNat → ∃ t, exec (.ldVxMem x) s = .next t ∧
      Raised .outOfBoundsMemoryAccess (some (max s.i.toNat 0x1000)) s t) ∧
    (0 < n.toNat → 0xFFF < s.i.toNat + n.toNat - 1 → ∃ t, exec (.drwVxVyN x y n) s = .next t ∧
      Raised .outOfBoundsMemoryAccess (some (max s.i.toNat 0x1000)) s t)

/-- RET with SP = 0 leaves ERR = (StackUnderflow, fetched word, PC), CALL with SP = STACK_DEPTH leaves ERR =
(StackOverflow, fetched word, PC), RUN = HaltedByError, all else unchanged; ERR.addr may be anything. The record
is decision D22 (logs 3, 4), the depth D5 (log 7). (60_exceptions.md R165, 60_exceptions.md R162,
60_exceptions.md R164, 92_eei_decisions.md D22, 92_eei_decisions.md D5) -/
def Obligations.StackErrorsAreRecorded : Prop :=
  ∀ (nnn : Addr) (s : State),
    (s.sp = 0 → ∃ t, exec .ret s = .next t ∧ Raised .stackUnderflow none s t) ∧
    (s.sp = Params.stackDepth → ∃ t, exec (.call nnn) s = .next t ∧ Raised .stackOverflow none s t)

/-- Take a running core at LD [I],Vx, x at least 1, with I the address of the next instruction and the range inside
memory. It answers a next state t, and if the word V[0] V[1] decodes to j then the step from t runs j.
(20_memory.md R53, 43_index_and_memory.md R134, 40_cycle.md R81) -/
def Obligations.StoreIsSeenByTheNextFetch : Prop :=
  ∀ (x : RegIdx) (s : State), s.run = .running → 1 ≤ x.toNat → s.i = s.pc + 2#16 → s.i.toNat + x.toNat ≤ 0xFFF →
    ∃ t, exec (.ldMemVx x) s = .next t ∧
      ∀ j, decodeWord (wordOfBytes (s.reg 0#4) (s.reg 1#4)) = .ok j → step t = exec j t

/-- For every state CLS answers a next state in which every cell of the 32 rows and 64 columns is 0 and PC moved by
2; every register, VF included, I, memory, stack and control state are unchanged. (R141) -/
def Obligations.ClsZeroesTheDisplay : Prop :=
  ∀ s : State, ∃ t, exec .cls s = .next t ∧ (∀ row col, t.fb.cell row col = false) ∧ t.pc = s.pc + 2#16 ∧
    FramePlane [] s t

/-- With the n sprite bytes inside memory (n = 0 always), DRW answers a next state in which every cell of the grid
is the old cell XOR the sprite's bit for it: row byte MEM[I + (row - V[y])], bit 7 - (col - V[x]). VF = 1 if a
set sprite bit fell on a set cell, else 0. PC + 2; every other register, I, memory and the rest are unchanged.
Operands and clipping are decisions D11 and D12 (logs 17, 18). (44_display.md R142, 44_display.md R143,
44_display.md R144, 92_eei_decisions.md D11, 92_eei_decisions.md D12) -/
def Obligations.DrwXorsAndReportsCollision : Prop :=
  ∀ (x y : RegIdx) (n : Nibble) (s : State), RangeOk s n.toNat → ∃ t, exec (.drwVxVyN x y n) s = .next t ∧
    (∀ row col, row < 32 → col < 64 → t.fb.cell row col = (s.fb.cell row col ^^ s.spriteBit x y n row col)) ∧
    (s.collides x y n → t.reg 15#4 = 1#8) ∧ (¬ s.collides x y n → t.reg 15#4 = 0#8) ∧
    t.pc = s.pc + 2#16 ∧ FramePlane [15#4] s t

/-- For x and y other than 15 and sprite bytes inside memory, two DRW in a row at one origin leave every cell as it
was, and if the plane was empty the second sets VF = 1 exactly when some set sprite bit lies inside the grid.
With x or y = 15 the first draw moves the origin, so those forms are left to the statement on one draw. The
operands and the bit order are decision D11 (log 17, PRESUMED), the clipping to the grid is decision D12 (log
18). (44_display.md R144, 44_display.md R142, 44_display.md R143, 92_eei_decisions.md D11, 92_eei_decisions.md
D12, 95_test_vectors.md E5) -/
def Obligations.DrawingTwiceRestoresThePlane : Prop :=
  ∀ (x y : RegIdx) (n : Nibble) (s : State), x ≠ 15#4 → y ≠ 15#4 → RangeOk s n.toNat →
    ∃ t u, exec (.drwVxVyN x y n) s = .next t ∧ exec (.drwVxVyN x y n) t = .next u ∧ SamePlane s u ∧
      ((∀ row col, s.fb.cell row col = false) →
        (u.reg 15#4 = 1#8 ↔ ∃ row col, row < 32 ∧ col < 64 ∧ s.spriteBit x y n row col = true))

/-- SKP Vx answers a next state with PC + 4 if KEYS[V[x] mod 16] is pressed, else PC + 2. SKNP Vx the other way
round. KEYS and all else are unchanged. Above 15 the low nibble is decision D16, parameter KEY_INDEX_POLICY (log
9). (45_input_and_timers.md R150, 45_input_and_timers.md R151, 45_input_and_timers.md R152, 92_eei_decisions.md
D16) -/
def Obligations.KeySkipsTestTheLowNibble : Prop :=
  ∀ (x : RegIdx) (s : State),
    (∃ t, exec (.skpVx x) s = .next t ∧
      t.pc = (if s.key ((s.reg x).toNat % 16) = true then s.pc + 4#16 else s.pc + 2#16) ∧
      FrameRegs [] s t ∧ SameDraws s t) ∧
    (∃ t, exec (.sknpVx x) s = .next t ∧
      t.pc = (if s.key ((s.reg x).toNat % 16) = true then s.pc + 2#16 else s.pc + 4#16) ∧
      FrameRegs [] s t ∧ SameDraws s t)

/-- LD Vx,K answers a next state with KX = x, RUN = WaitingForKey and PC + 2, in which every register, V[x]
included, I, memory, display, stack, keys and ERR are unchanged, whether or not a key is down. The two-phase
shape is decision D17 (log 20). (45_input_and_timers.md R153, 92_eei_decisions.md D17) -/
def Obligations.KeyWaitLatchesAndWaits : Prop :=
  ∀ (x : RegIdx) (s : State), ∃ t, exec (.ldVxK x) s = .next t ∧ t.kx = x ∧ t.run = .waitingForKey ∧
    t.pc = s.pc + 2#16 ∧ SameRegsBut [] s t ∧ t.i = s.i ∧ SameMem s t ∧ SamePlane s t ∧ SameStack s t ∧
    SameKeys s t ∧ t.err = s.err ∧ SameRom s t ∧ SameDraws s t

/-- In WaitingForKey: if no key is down, the step changes nothing. If k is the lowest key down, the step answers a
next state with V[KX] = k and RUN = Running, PC and all else unchanged: nothing is fetched. That the poll is a
cycle of its own is decision D17 (log 20). (45_input_and_timers.md R154, 40_cycle.md R80, 92_eei_decisions.md
D17) -/
def Obligations.KeyWaitEndsWithTheLowestKey : Prop :=
  ∀ s : State, s.run = .waitingForKey →
    ((∀ k, s.key k = false) → step s = .next s) ∧
    (∀ k, s.key k = true → (∀ j, j < k → s.key j = false) → ∃ t, step s = .next t ∧
      (t.reg s.kx).toNat = k ∧ t.run = .running ∧ t.pc = s.pc ∧ SameRegsBut [s.kx] s t ∧ t.i = s.i ∧ SameMem s t ∧
      SamePlane s t ∧ SameStack s t ∧ SameKeys s t ∧ t.kx = s.kx ∧ t.err = s.err ∧ SameRom s t ∧ SameDraws s t)

/-- LD Vx,DT answers a next state in which V[x] is the next TimerRead() draw, whatever it is; exactly one such draw
was made; PC + 2, all else unchanged. The draw is a free value (decision D14, log 2). (45_input_and_timers.md
R155, 92_eei_decisions.md D14) -/
def Obligations.TimerReadDeliversOneDraw : Prop :=
  ∀ (x : RegIdx) (s : State), ∃ t, exec (.ldVxDt x) s = .next t ∧ t.reg x = Config.timerRead s.timerDraws ∧
    t.pc = s.pc + 2#16 ∧ FrameRegs [x] s t ∧
    t.timerDraws = s.timerDraws + 1 ∧ t.randDraws = s.randDraws ∧ t.errDraws = s.errDraws

/-- Each answers a next state with PC + 2 in which every register, I, memory, display, stack, keys and control state
are unchanged and no draw was made. The stubs are decision D14 (log 27). (45_input_and_timers.md R156,
45_input_and_timers.md R157, 92_eei_decisions.md D14) -/
def Obligations.TimerWritesOnlyAdvance : Prop :=
  ∀ (x : RegIdx) (s : State),
    (∃ t, exec (.ldDtVx x) s = .next t ∧ t.pc = s.pc + 2#16 ∧ FrameRegs [] s t ∧ SameDraws s t) ∧
    (∃ t, exec (.ldStVx x) s = .next t ∧ t.pc = s.pc + 2#16 ∧ FrameRegs [] s t ∧ SameDraws s t)

/-- If RUN = Running, PC is at most 0xFFE and the bytes at PC and PC + 1, high byte first, decode to the well-formed
instruction i, then the step is exec i, with nothing added. (40_cycle.md R80, 40_cycle.md R81, 40_cycle.md R82,
20_memory.md R42) -/
def Obligations.StepRunsTheDecodedInstruction : Prop :=
  ∀ (i : Instr) (s : State), s.run = .running → s.pc.toNat ≤ 0xFFE →
    decodeWord (wordOfBytes (s.mem.read s.pc.toNat) (s.mem.read (s.pc.toNat + 1))) = .ok i → i.wellFormed = true →
    step s = exec i s

/-- If a running core fetches a word that decodes to no instruction, the step answers a next state with PC + 2, no
register, memory byte, display cell, stack entry, key or control state changed, and the cycle's event is
UnknownOpcode of that word. (R84) -/
def Obligations.UnknownWordsOnlyAdvance : Prop :=
  ∀ (e : DecodeError) (s : State), s.run = .running → s.pc.toNat ≤ 0xFFE →
    decodeWord (s.mem.word s.pc.toNat) = .error e →
    ∃ t, step s = .next t ∧ t.pc = s.pc + 2#16 ∧ FrameRegs [] s t ∧ SameDraws s t ∧
      cycleEvent s = some (s.mem.word s.pc.toNat)

/-- If RUN = Running and PC is at least 0xFFF, the step answers a next state with RUN = HaltedByError, ERR.kind =
OutOfBoundsMemoryAccess, ERR.pc = PC, ERR.addr = max(PC, 0x1000); PC and all else are unchanged. ERR.op may be
anything (log 3). The address is decision D13 (log 19). (20_memory.md R46, 40_cycle.md R81, 60_exceptions.md
R165, 92_eei_decisions.md D13) -/
def Obligations.FetchPastMemoryHalts : Prop :=
  ∀ s : State, s.run = .running → 0xFFF ≤ s.pc.toNat →
    ∃ t, step s = .next t ∧ t.run = .haltedByError ∧ t.err.kind = .outOfBoundsMemoryAccess ∧ t.err.pc = s.pc ∧
      t.err.addr.toNat = max s.pc.toNat 0x1000 ∧ FrameError s t

/-- If RUN is Paused or HaltedByError the step answers the same state and there is no UnknownOpcode event. This is
decision D18 (log 21). (40_cycle.md R80, 92_eei_decisions.md D18) -/
def Obligations.IdleCyclesChangeNothing : Prop :=
  ∀ s : State, s.run = .paused ∨ s.run = .haltedByError → step s = .next s ∧ cycleEvent s = none

/-- In HaltedByError, every host action other than reset() that answers leaves RUN, ERR and all state but KEYS
unchanged. Case by case: cycle(), step(), pause() and resume() answer the same state; the key commands set or
clear their bit of KEYS and change nothing else; a query answers the snapshot and the same state; loadRom
answers RomTooLarge and the same state for a longer image than 3584 bytes, and is refused by name for another.
reset() gives RUN = Running and ERR.kind = None. That pause, resume, step and the key commands act so is
decisions D18 and D33 (log 21); the two answers of loadRom outside the construction state are the model's choice
(decision D20, log 14). (60_exceptions.md R169, 60_exceptions.md R181, 40_cycle.md R80, 70_reset_and_hazards.md
R195, 92_eei_decisions.md D18, 92_eei_decisions.md D33, 92_eei_decisions.md D20) -/
def Obligations.HaltIsTerminalUntilReset : Prop :=
  ∀ s : State, s.run = .haltedByError →
    (∀ a t r, a ≠ HostAction.reset → perform a s = .next (t, r) →
      t.run = .haltedByError ∧ t.err = s.err ∧ t = { s with keys := t.keys }) ∧
    (∀ a, a = HostAction.cycle ∨ a = .step ∨ a = .pause ∨ a = .resume → perform a s = .next (s, .done)) ∧
    (∀ code b, ∃ t, perform (if b then .setKeyPressed code else .setKeyReleased code) s = .next (t, .done) ∧
      (∀ k, t.key k = if k = code ∧ code < 16 then b else s.key k) ∧ FrameRegs [] { s with keys := t.keys } t ∧
      t.pc = s.pc ∧ SameDraws s t) ∧
    perform .query s = .next (s, .view s.snapshot) ∧
    (∀ bytes : List Byte, perform (.loadRom bytes) s =
      if 3584 < bytes.length then .next (s, .romTooLarge) else .refused .loadRomNotFirst) ∧
    (∃ t, perform .reset s = .next (t, .done) ∧ t.run = .running ∧ t.err.kind = .none)

/-- For every instruction and every state exec answers a next state that is one of: halted with an error recorded at
PC and everything but RUN and ERR unchanged; ERR and RUN unchanged; or, for LD Vx,K only, ERR unchanged and RUN
= WaitingForKey. The absence of partial effects is decision D4 (log 19). (40_cycle.md R87, 40_cycle.md R83,
60_exceptions.md R165, 92_eei_decisions.md D4) -/
def Obligations.FatalErrorsArePrecise : Prop :=
  ∀ (i : Instr) (s : State), ∃ t, exec i s = .next t ∧
    ((t.run = .haltedByError ∧ t.err.kind ≠ .none ∧ t.err.pc = s.pc ∧ FrameError s t) ∨
      (t.run = s.run ∧ t.err = s.err) ∨
      (t.run = .waitingForKey ∧ t.err = s.err ∧ ∃ x, i = .ldVxK x))

/-- From every state, reachable or not, the step answers a next state: errors are entries into HaltedByError,
unknown words are no-ops, and no word is refused. The settings of KEY_INDEX_POLICY and VF_ALIAS_POLICY are the
spec's choices (logs 9, 10). (60_exceptions.md R160, 40_cycle.md R80, 92_eei_decisions.md D16,
92_eei_decisions.md D2) -/
def Obligations.EveryStepAnswersANextState : Prop :=
  ∀ s : State, ∃ t, step s = .next t

/-- If RUN = Running and the word at PC is 0x1nnn with nnn = PC, the step answers the same state. This idiom as an
end of a run is decision D31. (40_cycle.md R88, 92_eei_decisions.md D31) -/
def Obligations.JumpToSelfIsAtRest : Prop :=
  ∀ s : State, AtRest s → step s = .next s

/-- For every instruction, with every operand at every value its field admits: the decoder reads the encoder's word
as that instruction, and reads the encoder's two bytes, whatever bytes follow, as that instruction with those
bytes left over. The opcode numbers are the spec's general knowledge (log 16). (30_encoding.md R60,
30_encoding.md R62, 30_encoding.md R64, 30_encoding.md R66, 92_eei_decisions.md D10) -/
def Obligations.DecodeOfEncodeIsTheInstruction : Prop :=
  ∀ (i : Instr) (rest : List Byte), i.wellFormed = true →
    decodeWord (encode i) = .ok i ∧ decodeBytes (encodeBytes i ++ rest) = .ok (i, rest)

/-- For every word and instruction: the decoder gives the instruction if and only if the word under the row's mask
is the row's match value and the operands are the fields of the word, by position. So at most one row matches a
word. The numbers are the spec's general knowledge (log 16). (30_encoding.md R64, 30_encoding.md R65,
30_encoding.md R66, 30_encoding.md R62, 92_eei_decisions.md D10) -/
def Obligations.DecodeFollowsTheOpcodeMap : Prop :=
  ∀ (op : Word) (i : Instr), decodeWord op = .ok i ↔ op &&& i.row.2 = i.row.1 ∧ i.operandsOf op.toNat

/-- The decoder answers unknownOpcode of the word exactly when: family 0 and low byte neither 0xE0 nor 0xEE; family
8 and low nibble 8 to 0xD or 0xF; family 0xE and low byte neither 0x9E nor 0xA1; family 0xF and low byte none of
the nine listed. Otherwise it gives an instruction. The numbers are the spec's general knowledge (log 16).
(30_encoding.md R67, 30_encoding.md R65, 92_eei_decisions.md D10) -/
def Obligations.UnknownWordsAreTheListedOnes : Prop :=
  ∀ op : Word,
    (decodeWord op = .error (.unknownOpcode op) ↔
      (op.toNat / 4096 = 0x0 ∧ op.toNat % 256 ≠ 0xE0 ∧ op.toNat % 256 ≠ 0xEE) ∨
      (op.toNat / 4096 = 0x8 ∧ op.toNat % 16 ∈ [0x8, 0x9, 0xA, 0xB, 0xC, 0xD, 0xF]) ∨
      (op.toNat / 4096 = 0xE ∧ op.toNat % 256 ≠ 0x9E ∧ op.toNat % 256 ≠ 0xA1) ∨
      (op.toNat / 4096 = 0xF ∧ op.toNat % 256 ∉ [0x07, 0x0A, 0x15, 0x18, 0x1E, 0x29, 0x33, 0x55, 0x65])) ∧
    (decodeWord op = .error (.unknownOpcode op) ∨ ∃ i, decodeWord op = .ok i)

/-- If a word decodes to i, every word that agrees with it on the bits i uses decodes to i too; and the encoder's
word of i is 0 in the bits i does not use. That SHR and SHL ignore op[7:4] is decision D27 (log 23).
(30_encoding.md R68, 92_eei_decisions.md D27) -/
def Obligations.IgnoredBitsNeverMatter : Prop :=
  (∀ (op op' : Word) (i : Instr), decodeWord op = .ok i → op &&& i.usedBits = op' &&& i.usedBits →
      decodeWord op' = .ok i) ∧
    (∀ i : Instr, encode i &&& i.usedBits = encode i)

/-- One word at least of each of the 16 families, from the spec's decode vectors: 0x0AE0 is CLS, 0x00EE RET, 0x1FFF
JP 0xFFF, 0x2ABC CALL 0xABC, 0x3A7F SE V10,0x7F, 0x4A7F SNE V10,0x7F, 0x5AB7 SE V10,V11, 0x6A2F LD V10,0x2F,
0x7A01 ADD V10,0x01, 0x8AB6 SHR V10, 0x8ABE SHL V10, 0x9AB0 SNE V10,V11, 0xA123 LD I,0x123, 0xB123 JP V0,0x123,
0xC10F RND V1,0x0F, 0xD125 DRW V1,V2,5, 0xE1A1 SKNP V1, 0xF165 LD V1,[I]; 0x0000 and 0x8AB8 are unknown. The
numbers are the spec's general knowledge (decision D10, log 16, PRESUMED). (95_test_vectors.md 2.1,
30_encoding.md R66, 92_eei_decisions.md D10) -/
def Obligations.SampleWordsDecode : Prop :=
  decodeWord 0x0AE0#16 = .ok .cls ∧ decodeWord 0x00EE#16 = .ok .ret ∧ decodeWord 0x1FFF#16 = .ok (.jp 0xFFF#12) ∧
    decodeWord 0x2ABC#16 = .ok (.call 0xABC#12) ∧ decodeWord 0x3A7F#16 = .ok (.seVxKk 10#4 0x7F#8) ∧
    decodeWord 0x4A7F#16 = .ok (.sneVxKk 10#4 0x7F#8) ∧ decodeWord 0x6A2F#16 = .ok (.ldVxKk 10#4 0x2F#8) ∧
    decodeWord 0x7A01#16 = .ok (.addVxKk 10#4 0x01#8) ∧ decodeWord 0x9AB0#16 = .ok (.sneVxVy 10#4 11#4) ∧
    decodeWord 0xA123#16 = .ok (.ldIAddr 0x123#12) ∧ decodeWord 0xC10F#16 = .ok (.rndVxKk 1#4 0x0F#8) ∧
    decodeWord 0x5AB7#16 = .ok (.seVxVy 10#4 11#4) ∧ decodeWord 0x8AB6#16 = .ok (.shrVx 10#4) ∧
    decodeWord 0x8ABE#16 = .ok (.shlVx 10#4) ∧ decodeWord 0xB123#16 = .ok (.jpV0Addr 0x123#12) ∧
    decodeWord 0xD125#16 = .ok (.drwVxVyN 1#4 2#4 5#4) ∧ decodeWord 0xE1A1#16 = .ok (.sknpVx 1#4) ∧
    decodeWord 0xF165#16 = .ok (.ldVxMem 1#4) ∧ decodeWord 0x0000#16 = .error (.unknownOpcode 0x0000#16) ∧
    decodeWord 0x8AB8#16 = .error (.unknownOpcode 0x8AB8#16)

/-- If a state satisfies the invariant (memory in canonical form and inside 0x000..0xFFF; image at most 3584 bytes;
PC at most 0x10FE; SP at most STACK_DEPTH; live entries at most 0xFFE; halted only with an error recorded) then
so does every state that a step answers from it. (10_state.md R24, 10_state.md R13, 10_state.md R14) -/
def Obligations.EveryStepKeepsTheInvariant : Prop :=
  ∀ s t : State, Inv s → step s = .next t → Inv t

/-- State.reset satisfies the invariant that every step keeps. (10_state.md R24, 10_state.md R22) -/
def Obligations.ResetSatisfiesTheInvariant : Prop :=
  Inv State.reset

/-- If a state satisfies the invariant, so does every state that cycle(), step(), pause(), resume(), a key command,
reset(), loadRom or a query leaves. (10_state.md R24, 60_exceptions.md R181, 70_reset_and_hazards.md R192) -/
def Obligations.HostActionsKeepTheInvariant : Prop :=
  ∀ (a : HostAction) (s t : State) (r : Reply), Inv s → perform a s = .next (t, r) → Inv t

/-- When an instruction answers a next state: memory is unchanged unless it is LD B or LD [I],Vx; the display unless
it is CLS or DRW; I unless it is LD I, ADD I or LD F; the stack unless it is CALL or RET; KEYS and the retained
image always. (20_memory.md R41, 10_state.md R15, 10_state.md R12, 10_state.md R14, 10_state.md R16, 10_state.md
R20) -/
def Obligations.OnlyNamedInstructionsWriteEachStore : Prop :=
  ∀ (i : Instr) (s t : State), exec i s = .next t →
    ((∀ x, i ≠ .ldBVx x) → (∀ x, i ≠ .ldMemVx x) → SameMem s t) ∧
    (i ≠ .cls → (∀ x y n, i ≠ .drwVxVyN x y n) → SamePlane s t) ∧
    ((∀ nnn, i ≠ .ldIAddr nnn) → (∀ x, i ≠ .addIVx x) → (∀ x, i ≠ .ldFVx x) → t.i = s.i) ∧
    ((∀ nnn, i ≠ .call nnn) → i ≠ .ret → SameStack s t) ∧ SameKeys s t ∧ SameRom s t

/-- When an instruction answers a next state, a register it does not name as a destination is unchanged, unless it
is VF and the instruction is one of the six that define a flag; and each of those six, when it is not DRW with a
sprite out of range, leaves VF 0 or 1. VF unchanged by all others is decision D26 (log 23). (10_state.md R11,
10_state.md R10, 92_eei_decisions.md D26, 92_eei_decisions.md D2) -/
def Obligations.RegistersChangeOnlyWhenNamed : Prop :=
  ∀ (i : Instr) (s t : State), exec i s = .next t →
    (∀ r, ¬ i.namesDest r → (r ≠ 15#4 ∨ ¬ i.definesFlag) → t.reg r = s.reg r) ∧
    (i.definesFlag → (∀ x y n, i = .drwVxVyN x y n → RangeOk s n.toNat) → t.reg 15#4 = 0#8 ∨ t.reg 15#4 = 1#8)

/-- Whatever the run state and the fetched word, the state a step answers has the same 16 keys and the same retained
ROM image: only the host writes them. (10_state.md R16, 10_state.md R20) -/
def Obligations.StepsNeverWriteKeysOrImage : Prop :=
  ∀ s t : State, step s = .next t → SameKeys s t ∧ SameRom s t

/-- For every instruction other than SKP and SKNP, every state and every setting of the keys: exec answers a next
state, and from the state with the other keys it answers the same next state with the other keys. A key press
can steer a program only through SKP, SKNP and the key wait. (10_state.md R16, 60_exceptions.md R171,
60_exceptions.md R175) -/
def Obligations.OnlyKeySkipsReadTheKeys : Prop :=
  ∀ (i : Instr) (s : State) (ks : Vector Bool 16), (∀ x, i ≠ .skpVx x) → (∀ x, i ≠ .sknpVx x) →
    ∃ t, exec i s = .next t ∧ exec i { s with keys := ks } = .next { t with keys := ks }

/-- If CALL answers t from s (SP below STACK_DEPTH), then from any state u with t's stack RET answers a state whose
PC is the CALL's address + 2 and whose stack is that of s again. (41_control_flow.md R91, 41_control_flow.md
R93, 95_test_vectors.md E6) -/
def Obligations.CallThenRetComesBack : Prop :=
  ∀ (nnn : Addr) (s : State), s.sp < Params.stackDepth →
    ∃ t, exec (.call nnn) s = .next t ∧
      ∀ u : State, SameStack t u → ∃ w, exec .ret u = .next w ∧ w.pc = s.pc + 2#16 ∧ SameStack s w

/-- In State.reset every V is 0, I = 0, PC = 0x200, SP = 0, every cell is 0, no key is pressed, RUN = Running,
ERR.kind = None, the retained image is empty, memory holds FONT at 0x000..0x04F and 0 at every other address.
FONT at 0 is decision D8 (log 8). (10_state.md R22, 70_reset_and_hazards.md R190, 20_memory.md R44,
92_eei_decisions.md D8) -/
def Obligations.ResetStateIsConstruction : Prop :=
  (∀ r, State.reset.reg r = 0#8) ∧ State.reset.i = 0#16 ∧ State.reset.pc = 0x200#16 ∧ State.reset.sp = 0 ∧
    (∀ row col, State.reset.fb.cell row col = false) ∧ (∀ k, State.reset.key k = false) ∧
    State.reset.run = .running ∧ State.reset.err.kind = .none ∧ State.reset.rom = [] ∧
    (∀ a, a < 80 → Params.font[a]? = some (State.reset.mem.read a)) ∧
    (∀ a, 80 ≤ a → State.reset.mem.read a = 0#8)

/-- From any state reset() leaves every V 0, I = 0, PC = 0x200, SP = 0, cells 0, keys released, RUN = Running,
ERR.kind = None, the same retained image, memory with FONT, zeros and the image at 0x200, whatever a program
stored. The draws of the environment are not rewound. That memory is rebuilt is decision D19 (log 22).
(70_reset_and_hazards.md R191, 92_eei_decisions.md D19) -/
def Obligations.ResetRebuildsEverything : Prop :=
  ∀ s : State, ∃ t, perform .reset s = .next (t, .done) ∧ (∀ r, t.reg r = 0#8) ∧ t.i = 0#16 ∧ t.pc = 0x200#16 ∧
    t.sp = 0 ∧ (∀ row col, t.fb.cell row col = false) ∧ (∀ k, t.key k = false) ∧ t.run = .running ∧
    t.err.kind = .none ∧ t.rom = s.rom ∧ SameDraws s t ∧
    (∀ a, a < 0x200 ∨ 0x200 + s.rom.length ≤ a → t.mem.read a = State.reset.mem.read a) ∧
    (∀ j, j < s.rom.length → s.rom[j]? = some (t.mem.read (0x200 + j)))

/-- In the construction state: an image of at most 3584 bytes is retained and its bytes stand from 0x200 on, every
other byte and all other state as before. A longer image is answered RomTooLarge, in the construction state by
R192, and from any other state by the model's choice, which makes the size test first (decision D20, log 14);
the state is unchanged. (70_reset_and_hazards.md R192, 70_reset_and_hazards.md R195, 60_exceptions.md R166,
92_eei_decisions.md D20) -/
def Obligations.LoadRomCopiesAndRetains : Prop :=
  (∀ bytes : List Byte, bytes.length ≤ 3584 → ∃ t, perform (.loadRom bytes) State.reset = .next (t, .done) ∧
      t.rom = bytes ∧ (∀ j, j < bytes.length → bytes[j]? = some (t.mem.read (0x200 + j))) ∧
      (∀ a, a < 0x200 ∨ 0x200 + bytes.length ≤ a → t.mem.read a = State.reset.mem.read a) ∧
      SameRegsBut [] State.reset t ∧ t.i = State.reset.i ∧ t.pc = State.reset.pc ∧ SamePlane State.reset t ∧
      SameStack State.reset t ∧ SameKeys State.reset t ∧ SameControl State.reset t ∧ SameDraws State.reset t) ∧
    (∀ (bytes : List Byte) (s : State), 3584 < bytes.length → perform (.loadRom bytes) s = .next (s, .romTooLarge))

/-- pause() turns Running into Paused and has no effect in any other state; resume() turns Paused into Running and
has no effect in any other state. This is decision D18 (log 21). (60_exceptions.md R176, 60_exceptions.md R177,
92_eei_decisions.md D18) -/
def Obligations.PauseAndResumeToggleRunOnly : Prop :=
  ∀ s : State,
    (s.run = .running → perform .pause s = .next ({ s with run := .paused }, .done)) ∧
    (s.run ≠ .running → perform .pause s = .next (s, .done)) ∧
    (s.run = .paused → perform .resume s = .next ({ s with run := .running }, .done)) ∧
    (s.run ≠ .paused → perform .resume s = .next (s, .done))

/-- In Paused: with PC at most 0xFFE and the word at PC decoding to i, step() answers what exec i answers, and then
RUN is Paused, or HaltedByError with an error recorded, or WaitingForKey with i = LD Vx,K. With PC at most 0xFFE
and an unknown word at PC, it answers PC + 2, RUN still Paused, nothing else changed, and the event
UnknownOpcode of that word. With PC at least 0xFFF it halts with ERR.kind = OutOfBoundsMemoryAccess, ERR.pc =
PC, ERR.addr = max(PC, 0x1000), all else unchanged; ERR.op may be anything (log 3). In every other run state
step() has no effect. The run states are decision D18 (log 21), the reported address decision D13 (log 19), the
event decision D21 (log 13). (60_exceptions.md R178, 40_cycle.md R81, 40_cycle.md R84, 20_memory.md R46,
60_exceptions.md R165, 92_eei_decisions.md D18, 92_eei_decisions.md D13, 92_eei_decisions.md D21) -/
def Obligations.SingleStepRunsOneInstruction : Prop :=
  ∀ s : State,
    (∀ i, s.run = .paused → s.pc.toNat ≤ 0xFFE → decodeWord (s.mem.word s.pc.toNat) = .ok i →
      ∃ t, perform .step s = .next (t, .done) ∧ exec i s = .next t ∧
        (t.run = .paused ∨ (t.run = .haltedByError ∧ t.err.kind ≠ .none) ∨
          (t.run = .waitingForKey ∧ ∃ x, i = .ldVxK x))) ∧
    (∀ e, s.run = .paused → s.pc.toNat ≤ 0xFFE → decodeWord (s.mem.word s.pc.toNat) = .error e →
      ∃ t, perform .step s = .next (t, .unknownOpcode (s.mem.word s.pc.toNat)) ∧ t.run = .paused ∧
        t.pc = s.pc + 2#16 ∧ FrameRegs [] s t ∧ SameDraws s t) ∧
    (s.run = .paused → 0xFFF ≤ s.pc.toNat →
      ∃ t, perform .step s = .next (t, .done) ∧ t.run = .haltedByError ∧ t.err.kind = .outOfBoundsMemoryAccess ∧
        t.err.pc = s.pc ∧ t.err.addr.toNat = max s.pc.toNat 0x1000 ∧ FrameError s t) ∧
    (s.run ≠ .paused → perform .step s = .next (s, .done))

/-- For a code in 0..15 setKeyPressed sets and setKeyReleased clears that key; for another code neither has any
effect; no other key and no other state changes, RUN included. That every run state accepts them is decision D33
(log 21). (60_exceptions.md R179, 60_exceptions.md R180, 92_eei_decisions.md D33) -/
def Obligations.KeyCommandsWriteOneKey : Prop :=
  ∀ (code : Nat) (s : State), ∃ t u, perform (.setKeyPressed code) s = .next (t, .done) ∧
    perform (.setKeyReleased code) s = .next (u, .done) ∧
    (∀ k, t.key k = if k = code ∧ code < 16 then true else s.key k) ∧
    (∀ k, u.key k = if k = code ∧ code < 16 then false else s.key k) ∧
    t = { s with keys := t.keys } ∧ u = { s with keys := u.keys }
end

