-- ==== Sys2Proof/Laws/PerInstr.lean ====
section
/-! SUPPORT. Statements per instruction, as syntax. Family EncodingFits: the instruction is well formed, and its word matches
its row of the opcode map, holds its operands in their fields, and is 0 in the bits it does not use
(30_encoding.md R62, R66, R68). -/

namespace Sys2Proof

theorem encodeA_toNat (fam : Nibble) (nnn : Addr) : (encodeA fam nnn).toNat = fam.toNat * 4096 + nnn.toNat := by
  have h := BitVec.toNat_append fam nnn
  rw [← Nat.shiftLeft_add_eq_or_of_lt nnn.isLt, Nat.shiftLeft_eq] at h
  exact h

theorem encodeXK_toNat (fam : Nibble) (x : RegIdx) (kk : Byte) :
    (encodeXK fam x kk).toNat = fam.toNat * 4096 + x.toNat * 256 + kk.toNat := by
  have h1 := BitVec.toNat_append fam x
  rw [← Nat.shiftLeft_add_eq_or_of_lt x.isLt, Nat.shiftLeft_eq] at h1
  have h2 := BitVec.toNat_append (fam ++ x) kk
  rw [← Nat.shiftLeft_add_eq_or_of_lt kk.isLt, Nat.shiftLeft_eq, h1] at h2
  refine h2.trans ?_
  omega

theorem encodeXYN_toNat (fam : Nibble) (x y : RegIdx) (n : Nibble) :
    (encodeXYN fam x y n).toNat = fam.toNat * 4096 + x.toNat * 256 + y.toNat * 16 + n.toNat := by
  have h1 := BitVec.toNat_append fam x
  rw [← Nat.shiftLeft_add_eq_or_of_lt x.isLt, Nat.shiftLeft_eq] at h1
  have h2 := BitVec.toNat_append (fam ++ x) y
  rw [← Nat.shiftLeft_add_eq_or_of_lt y.isLt, Nat.shiftLeft_eq, h1] at h2
  have h3 := BitVec.toNat_append (fam ++ x ++ y) n
  rw [← Nat.shiftLeft_add_eq_or_of_lt n.isLt, Nat.shiftLeft_eq, h2] at h3
  refine h3.trans ?_
  omega

/-- A word of format A keeps its family under the family mask. -/
theorem encodeA_mask (fam : Nibble) (nnn : Addr) : encodeA fam nnn &&& 0xF000#16 = encodeA fam 0#12 := by
  apply BitVec.eq_of_getLsbD_eq
  intro j hj
  simp only [encodeA, BitVec.getLsbD_and, BitVec.getLsbD_append]
  interval_cases j <;> simp

/-- A word of format XK keeps its family under the family mask. -/
theorem encodeXK_mask (fam : Nibble) (x : RegIdx) (kk : Byte) :
    encodeXK fam x kk &&& 0xF000#16 = encodeXK fam 0#4 0#8 := by
  apply BitVec.eq_of_getLsbD_eq
  intro j hj
  simp only [encodeXK, BitVec.getLsbD_and, BitVec.getLsbD_append]
  interval_cases j <;> simp

/-- A word of format XS keeps its family and its low byte under the mask of its family. -/
theorem encodeXK_maskLow (fam : Nibble) (x : RegIdx) (kk : Byte) :
    encodeXK fam x kk &&& 0xF0FF#16 = encodeXK fam 0#4 kk := by
  apply BitVec.eq_of_getLsbD_eq
  intro j hj
  simp only [encodeXK, BitVec.getLsbD_and, BitVec.getLsbD_append]
  interval_cases j <;> simp

/-- A word of format XYN keeps its family under the family mask. -/
theorem encodeXYN_mask (fam : Nibble) (x y : RegIdx) (n : Nibble) :
    encodeXYN fam x y n &&& 0xF000#16 = encodeXYN fam 0#4 0#4 0#4 := by
  apply BitVec.eq_of_getLsbD_eq
  intro j hj
  simp only [encodeXYN, BitVec.getLsbD_and, BitVec.getLsbD_append]
  interval_cases j <;> simp

/-- A word of family 0x8 keeps its family and its low nibble under the mask of its family. -/
theorem encodeXYN_maskLow (fam : Nibble) (x y : RegIdx) (n : Nibble) :
    encodeXYN fam x y n &&& 0xF00F#16 = encodeXYN fam 0#4 0#4 n := by
  apply BitVec.eq_of_getLsbD_eq
  intro j hj
  simp only [encodeXYN, BitVec.getLsbD_and, BitVec.getLsbD_append]
  interval_cases j <;> simp

/-- All 16 bits are kept. -/
theorem and_all (w : Word) : w &&& 0xFFFF#16 = w := BitVec.and_allOnes (x := w)

/-- A word whose low nibble is written 0 is 0 there (30_encoding.md R68). -/
theorem encodeXYN_ignoreLow (fam : Nibble) (x y : RegIdx) :
    encodeXYN fam x y 0#4 &&& 0xFFF0#16 = encodeXYN fam x y 0#4 := by
  apply BitVec.eq_of_getLsbD_eq
  intro j hj
  simp only [encodeXYN, BitVec.getLsbD_and, BitVec.getLsbD_append]
  interval_cases j <;> simp

/-- A word whose `y` nibble is written 0 is 0 there (30_encoding.md R68). -/
theorem encodeXYN_ignoreY (fam : Nibble) (x : RegIdx) (n : Nibble) :
    encodeXYN fam x 0#4 n &&& 0xFF0F#16 = encodeXYN fam x 0#4 n := by
  apply BitVec.eq_of_getLsbD_eq
  intro j hj
  simp only [encodeXYN, BitVec.getLsbD_and, BitVec.getLsbD_append]
  interval_cases j <;> simp

end Sys2Proof

namespace Sys2Proof.Laws.EncodingFits

/-- The instruction is well formed, its word matches its row and holds its operands, and its unused bits are 0. -/
def Statement (i : Instr) : Prop :=
  i.wellFormed = true ∧ encode i &&& i.row.2 = i.row.1 ∧ i.operandsOf (encode i).toNat ∧
    encode i &&& i.usedBits = encode i

theorem ofA {i : Instr} {fam : Nibble} {nnn : Addr} (he : encode i = encodeA fam nnn)
    (hw : i.wellFormed = fitsAddr nnn.toNat) (hr : i.row = (encodeA fam 0#12, 0xF000#16))
    (ho : ∀ op : Nat, nnn.toNat = op % 4096 → i.operandsOf op) (hu : i.usedBits = 0xFFFF#16) : Statement i := by
  have := nnn.isLt
  refine ⟨by rw [hw]; simp [fitsAddr, this], by rw [he, hr]; exact encodeA_mask fam nnn, ho _ ?_,
    by rw [hu]; exact and_all _⟩
  rw [he, encodeA_toNat]
  omega

theorem ofXK {i : Instr} {fam : Nibble} {x : RegIdx} {kk : Byte} (he : encode i = encodeXK fam x kk)
    (hw : i.wellFormed = (fitsNibble x.toNat && fitsByte kk.toNat)) (hr : i.row = (encodeXK fam 0#4 0#8, 0xF000#16))
    (ho : ∀ op : Nat, x.toNat = op / 256 % 16 ∧ kk.toNat = op % 256 → i.operandsOf op)
    (hu : i.usedBits = 0xFFFF#16) : Statement i := by
  have := x.isLt
  have := kk.isLt
  refine ⟨by rw [hw]; simp [fitsNibble, fitsByte, *], by rw [he, hr]; exact encodeXK_mask fam x kk, ho _ ?_,
    by rw [hu]; exact and_all _⟩
  rw [he, encodeXK_toNat]
  omega

theorem ofXS {i : Instr} {fam : Nibble} {x : RegIdx} {key : Byte} (he : encode i = encodeXK fam x key)
    (hw : i.wellFormed = fitsNibble x.toNat) (hr : i.row = (encodeXK fam 0#4 key, 0xF0FF#16))
    (ho : ∀ op : Nat, x.toNat = op / 256 % 16 → i.operandsOf op) (hu : i.usedBits = 0xFFFF#16) : Statement i := by
  have := x.isLt
  have := key.isLt
  refine ⟨by rw [hw]; simp [fitsNibble, *], by rw [he, hr]; exact encodeXK_maskLow fam x key, ho _ ?_,
    by rw [hu]; exact and_all _⟩
  rw [he, encodeXK_toNat]
  omega

theorem ofZ {i : Instr} {key : Byte} (he : encode i = encodeXK 0#4 0#4 key) (hw : i.wellFormed = true)
    (hr : i.row = (encodeXK 0#4 0#4 key, 0xF0FF#16)) (ho : ∀ op : Nat, i.operandsOf op)
    (hu : i.usedBits = 0xF0FF#16) : Statement i := by
  refine ⟨hw, by rw [he, hr]; exact encodeXK_maskLow 0#4 0#4 key, ho _, by rw [hu, he]; exact encodeXK_maskLow 0#4 0#4 key⟩

theorem ofAlu {i : Instr} {x y : RegIdx} {key : Nibble} (he : encode i = encodeXYN 8#4 x y key)
    (hw : i.wellFormed = (fitsNibble x.toNat && fitsNibble y.toNat))
    (hr : i.row = (encodeXYN 8#4 0#4 0#4 key, 0xF00F#16))
    (ho : ∀ op : Nat, x.toNat = op / 256 % 16 ∧ y.toNat = op / 16 % 16 → i.operandsOf op)
    (hu : i.usedBits = 0xFFFF#16) : Statement i := by
  have := x.isLt
  have := y.isLt
  have := key.isLt
  refine ⟨by rw [hw]; simp [fitsNibble, *], by rw [he, hr]; exact encodeXYN_maskLow 8#4 x y key, ho _ ?_,
    by rw [hu]; exact and_all _⟩
  rw [he, encodeXYN_toNat]
  omega

theorem ofShift {i : Instr} {x : RegIdx} {key : Nibble} (he : encode i = encodeXYN 8#4 x 0#4 key)
    (hw : i.wellFormed = fitsNibble x.toNat) (hr : i.row = (encodeXYN 8#4 0#4 0#4 key, 0xF00F#16))
    (ho : ∀ op : Nat, x.toNat = op / 256 % 16 → i.operandsOf op) (hu : i.usedBits = 0xFF0F#16) : Statement i := by
  have := x.isLt
  have := key.isLt
  refine ⟨by rw [hw]; simp [fitsNibble, *], by rw [he, hr]; exact encodeXYN_maskLow 8#4 x 0#4 key, ho _ ?_,
    by rw [hu, he]; exact encodeXYN_ignoreY 8#4 x key⟩
  rw [he, encodeXYN_toNat]
  simp
  omega

theorem ofSkip {i : Instr} {fam : Nibble} {x y : RegIdx} (he : encode i = encodeXYN fam x y 0#4)
    (hw : i.wellFormed = (fitsNibble x.toNat && fitsNibble y.toNat))
    (hr : i.row = (encodeXYN fam 0#4 0#4 0#4, 0xF000#16))
    (ho : ∀ op : Nat, x.toNat = op / 256 % 16 ∧ y.toNat = op / 16 % 16 → i.operandsOf op)
    (hu : i.usedBits = 0xFFF0#16) : Statement i := by
  have := x.isLt
  have := y.isLt
  refine ⟨by rw [hw]; simp [fitsNibble, *], by rw [he, hr]; exact encodeXYN_mask fam x y 0#4, ho _ ?_,
    by rw [hu, he]; exact encodeXYN_ignoreLow fam x y⟩
  rw [he, encodeXYN_toNat]
  simp
  omega

theorem cls : Statement .cls :=
  ofZ rfl rfl rfl (fun _ => trivial) rfl

theorem ret : Statement .ret :=
  ofZ rfl rfl rfl (fun _ => trivial) rfl

theorem jp (nnn : Addr) : Statement (.jp nnn) :=
  ofA rfl rfl rfl (fun _ h => h) rfl

theorem call (nnn : Addr) : Statement (.call nnn) :=
  ofA rfl rfl rfl (fun _ h => h) rfl

theorem seVxKk (x : RegIdx) (kk : Byte) : Statement (.seVxKk x kk) :=
  ofXK rfl rfl rfl (fun _ h => h) rfl

theorem sneVxKk (x : RegIdx) (kk : Byte) : Statement (.sneVxKk x kk) :=
  ofXK rfl rfl rfl (fun _ h => h) rfl

theorem seVxVy (x y : RegIdx) : Statement (.seVxVy x y) :=
  ofSkip rfl rfl rfl (fun _ h => h) rfl

theorem ldVxKk (x : RegIdx) (kk : Byte) : Statement (.ldVxKk x kk) :=
  ofXK rfl rfl rfl (fun _ h => h) rfl

theorem addVxKk (x : RegIdx) (kk : Byte) : Statement (.addVxKk x kk) :=
  ofXK rfl rfl rfl (fun _ h => h) rfl

theorem ldVxVy (x y : RegIdx) : Statement (.ldVxVy x y) :=
  ofAlu rfl rfl rfl (fun _ h => h) rfl

theorem orVxVy (x y : RegIdx) : Statement (.orVxVy x y) :=
  ofAlu rfl rfl rfl (fun _ h => h) rfl

theorem andVxVy (x y : RegIdx) : Statement (.andVxVy x y) :=
  ofAlu rfl rfl rfl (fun _ h => h) rfl

theorem xorVxVy (x y : RegIdx) : Statement (.xorVxVy x y) :=
  ofAlu rfl rfl rfl (fun _ h => h) rfl

theorem addVxVy (x y : RegIdx) : Statement (.addVxVy x y) :=
  ofAlu rfl rfl rfl (fun _ h => h) rfl

theorem subVxVy (x y : RegIdx) : Statement (.subVxVy x y) :=
  ofAlu rfl rfl rfl (fun _ h => h) rfl

theorem shrVx (x : RegIdx) : Statement (.shrVx x) :=
  ofShift rfl rfl rfl (fun _ h => h) rfl

theorem subnVxVy (x y : RegIdx) : Statement (.subnVxVy x y) :=
  ofAlu rfl rfl rfl (fun _ h => h) rfl

theorem shlVx (x : RegIdx) : Statement (.shlVx x) :=
  ofShift rfl rfl rfl (fun _ h => h) rfl

theorem sneVxVy (x y : RegIdx) : Statement (.sneVxVy x y) :=
  ofSkip rfl rfl rfl (fun _ h => h) rfl

theorem ldIAddr (nnn : Addr) : Statement (.ldIAddr nnn) :=
  ofA rfl rfl rfl (fun _ h => h) rfl

theorem jpV0Addr (nnn : Addr) : Statement (.jpV0Addr nnn) :=
  ofA rfl rfl rfl (fun _ h => h) rfl

theorem rndVxKk (x : RegIdx) (kk : Byte) : Statement (.rndVxKk x kk) :=
  ofXK rfl rfl rfl (fun _ h => h) rfl

theorem drwVxVyN (x y : RegIdx) (n : Nibble) : Statement (.drwVxVyN x y n) := by
  have := x.isLt
  have := y.isLt
  have := n.isLt
  refine ⟨by simp [Instr.wellFormed, fitsNibble, *], encodeXYN_mask 0xD#4 x y n, ?_, and_all _⟩
  simp only [Instr.operandsOf, encode, encodeXYN_toNat]
  omega

theorem skpVx (x : RegIdx) : Statement (.skpVx x) :=
  ofXS rfl rfl rfl (fun _ h => h) rfl

theorem sknpVx (x : RegIdx) : Statement (.sknpVx x) :=
  ofXS rfl rfl rfl (fun _ h => h) rfl

theorem ldVxDt (x : RegIdx) : Statement (.ldVxDt x) :=
  ofXS rfl rfl rfl (fun _ h => h) rfl

theorem ldVxK (x : RegIdx) : Statement (.ldVxK x) :=
  ofXS rfl rfl rfl (fun _ h => h) rfl

theorem ldDtVx (x : RegIdx) : Statement (.ldDtVx x) :=
  ofXS rfl rfl rfl (fun _ h => h) rfl

theorem ldStVx (x : RegIdx) : Statement (.ldStVx x) :=
  ofXS rfl rfl rfl (fun _ h => h) rfl

theorem addIVx (x : RegIdx) : Statement (.addIVx x) :=
  ofXS rfl rfl rfl (fun _ h => h) rfl

theorem ldFVx (x : RegIdx) : Statement (.ldFVx x) :=
  ofXS rfl rfl rfl (fun _ h => h) rfl

theorem ldBVx (x : RegIdx) : Statement (.ldBVx x) :=
  ofXS rfl rfl rfl (fun _ h => h) rfl

theorem ldMemVx (x : RegIdx) : Statement (.ldMemVx x) :=
  ofXS rfl rfl rfl (fun _ h => h) rfl

theorem ldVxMem (x : RegIdx) : Statement (.ldVxMem x) :=
  ofXS rfl rfl rfl (fun _ h => h) rfl

end Sys2Proof.Laws.EncodingFits
end

