-- ==== Sys2Proof/Laws/Decode.lean ====
section
/-! SUPPORT. The laws of the decoder (30_encoding.md R62 to R67): what each field of a word is as a number, what each mask
keeps, and which row of the opcode map a word selects. -/

namespace Sys2Proof

/-! ## Fields (R62) -/

theorem fieldFamily_toNat (op : Word) : (fieldFamily op).toNat = op.toNat / 4096 := by
  have := op.isLt
  simp [fieldFamily, BitVec.extractLsb'_toNat, Nat.shiftRight_eq_div_pow]
  omega

theorem fieldX_toNat (op : Word) : (fieldX op).toNat = op.toNat / 256 % 16 := by
  simp [fieldX, BitVec.extractLsb'_toNat, Nat.shiftRight_eq_div_pow]

theorem fieldY_toNat (op : Word) : (fieldY op).toNat = op.toNat / 16 % 16 := by
  simp [fieldY, BitVec.extractLsb'_toNat, Nat.shiftRight_eq_div_pow]

theorem fieldN_toNat (op : Word) : (fieldN op).toNat = op.toNat % 16 := by
  simp [fieldN, BitVec.extractLsb'_toNat]

theorem fieldKk_toNat (op : Word) : (fieldKk op).toNat = op.toNat % 256 := by
  simp [fieldKk, BitVec.extractLsb'_toNat]

theorem fieldNnn_toNat (op : Word) : (fieldNnn op).toNat = op.toNat % 4096 := by
  simp [fieldNnn, BitVec.extractLsb'_toNat]

/-- A word is its family, `x` and low byte put together. -/
theorem encodeXK_fields (op : Word) : encodeXK (fieldFamily op) (fieldX op) (fieldKk op) = op := by
  have := op.isLt
  apply BitVec.eq_of_toNat_eq
  rw [encodeXK_toNat, fieldFamily_toNat, fieldX_toNat, fieldKk_toNat]
  omega

/-- A word is its family, `x`, `y` and low nibble put together. -/
theorem encodeXYN_fields (op : Word) : encodeXYN (fieldFamily op) (fieldX op) (fieldY op) (fieldN op) = op := by
  have := op.isLt
  apply BitVec.eq_of_toNat_eq
  rw [encodeXYN_toNat, fieldFamily_toNat, fieldX_toNat, fieldY_toNat, fieldN_toNat]
  omega

/-! ## Masks (R65) -/

/-- The mask of families 0x0, 0xE and 0xF keeps the family and the low byte. -/
theorem maskLow_toNat (op : Word) : (op &&& 0xF0FF#16).toNat = op.toNat / 4096 * 4096 + op.toNat % 256 := by
  conv => lhs; rw [← encodeXK_fields op, encodeXK_maskLow, encodeXK_toNat, fieldFamily_toNat, fieldKk_toNat]
  simp

/-- The mask of family 0x8 keeps the family and the low nibble. -/
theorem maskAlu_toNat (op : Word) : (op &&& 0xF00F#16).toNat = op.toNat / 4096 * 4096 + op.toNat % 16 := by
  conv => lhs; rw [← encodeXYN_fields op, encodeXYN_maskLow, encodeXYN_toNat, fieldFamily_toNat, fieldN_toNat]
  simp

/-- The mask of the other families keeps the family alone. -/
theorem maskHigh_toNat (op : Word) : (op &&& 0xF000#16).toNat = op.toNat / 4096 * 4096 := by
  conv => lhs; rw [← encodeXK_fields op, encodeXK_mask, encodeXK_toNat, fieldFamily_toNat]
  simp

/-- A mask that is all ones on `x` keeps `x`. -/
theorem fieldX_and (op m : Word) (h : fieldX m = 0xF#4) : fieldX (op &&& m) = fieldX op := by
  unfold fieldX at *
  rw [BitVec.extractLsb'_and, h]
  exact BitVec.and_allOnes

/-- A mask that is all ones on `y` keeps `y`. -/
theorem fieldY_and (op m : Word) (h : fieldY m = 0xF#4) : fieldY (op &&& m) = fieldY op := by
  unfold fieldY at *
  rw [BitVec.extractLsb'_and, h]
  exact BitVec.and_allOnes

/-- The mask of a family keeps the family of any word. -/
theorem fieldFamily_and_familyMask (op : Word) (fam : Nibble) :
    fieldFamily (op &&& familyMask fam) = fieldFamily op := by
  have h : fieldFamily (familyMask fam) = BitVec.allOnes 4 := by
    unfold familyMask
    split
    · rfl
    · split <;> rfl
  unfold fieldFamily at *
  rw [BitVec.extractLsb'_and, h, BitVec.and_allOnes]

/-! ## The opcode map (R64, R66) -/

/-- A word has a key if and only if it has it under the mask of the KEY's family. -/
theorem decodeKey_eq_iff (op pat : Word) : decodeKey op = pat ↔ op &&& familyMask (fieldFamily pat) = pat := by
  constructor
  · intro e
    have : fieldFamily pat = fieldFamily op := by rw [← e]; exact fieldFamily_and_familyMask _ _
    rw [this]
    exact e
  · intro e
    have : fieldFamily pat = fieldFamily op := by rw [← e]; exact fieldFamily_and_familyMask _ _
    rw [this] at e
    exact e

/-- No two rows have one match value. -/
theorem opcodeMap_pairwise : opcodeMap.Pairwise (fun a b => a.pat ≠ b.pat) := by
  have : (opcodeMap.map (·.pat)).Pairwise (· ≠ ·) := by decide
  exact List.pairwise_map.1 this

/-- In rows of distinct match values the search for a key finds the row that has it. -/
theorem find_row_iff {l : List OpcodeRow} (hl : l.Pairwise (fun a b => a.pat ≠ b.pat)) (key : Word) (row : OpcodeRow) :
    l.find? (fun r => r.pat == key) = some row ↔ row ∈ l ∧ row.pat = key := by
  induction l with
  | nil => simp
  | cons a l ih =>
    obtain ⟨h1, h2⟩ := List.pairwise_cons.1 hl
    rw [List.find?_cons]
    by_cases h : a.pat = key
    · simp only [h, beq_self_eq_true, List.mem_cons, Option.some.injEq]
      constructor
      · rintro rfl
        exact ⟨.inl rfl, h⟩
      · rintro ⟨rfl | hm, hk⟩
        · rfl
        · exact (h1 row hm (h.trans hk.symm)).elim
    · have h' : (a.pat == key) = false := by simpa using h
      simp only [h', ih h2, List.mem_cons]
      constructor
      · rintro ⟨h3, h4⟩
        exact ⟨.inr h3, h4⟩
      · rintro ⟨rfl | h3, h4⟩
        · exact (h h4).elim
        · exact ⟨h3, h4⟩

/-- What the decoder gives: the instruction that a row builds whose match value the word has under its mask. -/
theorem decodeWord_ok_iff (op : Word) (i : Instr) :
    decodeWord op = .ok i ↔
      ∃ row ∈ opcodeMap, op &&& familyMask (fieldFamily row.pat) = row.pat ∧ row.build op = i := by
  unfold decodeWord
  cases h : opcodeMap.find? (fun r => r.pat == decodeKey op) with
  | none =>
    simp only [reduceCtorEq, false_iff]
    rintro ⟨row, hrow, hk, -⟩
    have h1 := (decodeKey_eq_iff op row.pat).2 hk
    have h2 := List.find?_eq_none.1 h row hrow
    simp [h1] at h2
  | some row =>
    obtain ⟨h1, h2⟩ := (find_row_iff opcodeMap_pairwise _ _).1 h
    simp only [Except.ok.injEq]
    constructor
    · intro hb
      exact ⟨row, h1, (decodeKey_eq_iff op row.pat).1 h2.symm, hb⟩
    · rintro ⟨row', h3, h4, h5⟩
      have h6 := (find_row_iff opcodeMap_pairwise (decodeKey op) row').2 ⟨h3, ((decodeKey_eq_iff op row'.pat).2 h4).symm⟩
      rw [h] at h6
      cases h6
      exact h5

/-- The decoder answers an instruction, or it names the word as unknown. -/
theorem decodeWord_cases (op : Word) :
    decodeWord op = .error (.unknownOpcode op) ∨ ∃ i, decodeWord op = .ok i := by
  unfold decodeWord
  split
  · exact .inr ⟨_, rfl⟩
  · exact .inl rfl

end Sys2Proof
end

