-- ==== Sys2Proof/Laws/Memory.lean ====
section
/-! SUPPORT. The laws of memory: what a read after a write gives, and that every operation keeps the canonical form. -/

namespace Sys2Proof.Machine

/-! ## Reads -/

theorem Memory.read_filter_same (m : Memory) (a : Nat) :
    Memory.read (m.filter (fun c => c.1 ≠ a)) a = unlistedByte a := by
  induction m with
  | nil => rfl
  | cons c rest ih =>
    by_cases h : c.1 = a
    · simpa [h] using ih
    · simpa [h, Memory.read] using ih

theorem Memory.read_filter_other (m : Memory) (a b : Nat) (h : b ≠ a) :
    Memory.read (m.filter (fun c => c.1 ≠ a)) b = m.read b := by
  induction m with
  | nil => rfl
  | cons c rest ih =>
    by_cases h' : c.1 = a
    · have : ¬ c.1 = b := fun e => h (e.symm.trans h')
      rw [List.filter_cons_of_neg (by simpa using h'), ih, Memory.read, if_neg this]
    · rw [List.filter_cons_of_pos (by simpa using h'), Memory.read, Memory.read, ih]

theorem Memory.read_place_same (m : Memory) (a : Nat) (w : Byte) (h : ∀ c ∈ m, c.1 ≠ a) :
    (m.place a w).read a = w := by
  induction m with
  | nil => simp [Memory.place, Memory.read]
  | cons c rest ih =>
    have hc := h c (by simp)
    rw [Memory.place]
    split
    · simp [Memory.read]
    · simpa [Memory.read, hc] using ih (fun d hd => h d (by simp [hd]))

theorem Memory.read_place_other (m : Memory) (a b : Nat) (w : Byte) (h : b ≠ a) :
    (m.place a w).read b = m.read b := by
  induction m with
  | nil => simp [Memory.place, Memory.read, Ne.symm h]
  | cons c rest ih =>
    rw [Memory.place]
    split
    · simp [Memory.read, Ne.symm h]
    · simp [Memory.read, ih]

/-- A read after a write to the same address gives the byte written. -/
@[simp] theorem Memory.read_write_same (m : Memory) (a : Nat) (w : Byte) : (m.write a w).read a = w := by
  unfold Memory.write
  split
  · rename_i h; rw [Memory.read_filter_same, h]
  · exact Memory.read_place_same _ _ _ (by simp)

/-- A write leaves every other address alone. -/
theorem Memory.read_write_other (m : Memory) (a b : Nat) (w : Byte) (h : b ≠ a) :
    (m.write a w).read b = m.read b := by
  unfold Memory.write
  split
  · exact Memory.read_filter_other m a b h
  · rw [Memory.read_place_other _ _ _ _ h, Memory.read_filter_other m a b h]

theorem Memory.read_write (m : Memory) (a b : Nat) (w : Byte) :
    (m.write a w).read b = if b = a then w else m.read b := by
  by_cases h : b = a
  · subst h; simp
  · simp [h, Memory.read_write_other]

/-- What an address reads as after a run of bytes was stored at `a` (20_memory.md R49). -/
theorem Memory.read_writeBytes (m : Memory) (a b : Nat) (bytes : List Byte) :
    (m.writeBytes a bytes).read b =
      if a ≤ b ∧ b < a + bytes.length then bytes.getD (b - a) 0#8 else m.read b := by
  induction bytes generalizing m a with
  | nil => rw [if_neg (by simp)]; rfl
  | cons w rest ih =>
    rw [Memory.writeBytes, ih, Memory.read_write]
    simp only [List.length_cons]
    by_cases h : b = a
    · subst h; simp
    · by_cases h' : a ≤ b
      · obtain ⟨d, rfl⟩ : ∃ d, b = a + 1 + d := ⟨b - (a + 1), by omega⟩
        by_cases hd : d < rest.length
        · rw [if_pos (by omega), if_pos (by omega)]
          rw [show a + 1 + d - (a + 1) = d by omega, show a + 1 + d - a = d + 1 by omega]
          simp
        · rw [if_neg (by omega), if_neg h, if_neg (by omega)]
      · rw [if_neg (by omega), if_neg h, if_neg (by omega)]

theorem Memory.readBytes_length (m : Memory) (a k : Nat) : (m.readBytes a k).length = k := by
  induction k generalizing a with
  | zero => rfl
  | succ k ih => simp [Memory.readBytes, ih]

/-- The `j`-th of `k` bytes read from `a` on. -/
theorem Memory.getElem?_readBytes (m : Memory) (a k j : Nat) :
    (m.readBytes a k)[j]? = if j < k then some (m.read (a + j)) else none := by
  induction k generalizing a j with
  | zero => simp [Memory.readBytes]
  | succ k ih =>
    cases j with
    | zero => simp [Memory.readBytes]
    | succ j =>
      rw [Memory.readBytes, List.getElem?_cons_succ, ih]
      simp [Nat.add_assoc, Nat.add_comm 1 j]

/-! ## The canonical form -/

theorem Memory.mem_place (m : Memory) (a : Nat) (w : Byte) (c : Host.Cell) :
    c ∈ m.place a w ↔ c = (a, w) ∨ c ∈ m := by
  induction m with
  | nil => simp [Memory.place]
  | cons d rest ih =>
    rw [Memory.place]
    split
    · simp
    · simp only [List.mem_cons, ih]; tauto

theorem Memory.pairwise_place (m : Memory) (a : Nat) (w : Byte) (h : ∀ c ∈ m, c.1 ≠ a)
    (hs : m.Pairwise (fun c d => c.1 < d.1)) : (m.place a w).Pairwise (fun c d => c.1 < d.1) := by
  induction m with
  | nil => simp [Memory.place]
  | cons c rest ih =>
    obtain ⟨hc, hrest⟩ := List.pairwise_cons.1 hs
    rw [Memory.place]
    split
    · rename_i hlt
      refine List.pairwise_cons.2 ⟨fun d hd => ?_, hs⟩
      rcases List.mem_cons.1 hd with rfl | hd
      · exact hlt
      · exact Nat.lt_trans hlt (hc d hd)
    · rename_i hlt
      refine List.pairwise_cons.2 ⟨fun d hd => ?_, ih (fun d hd => h d (by simp [hd])) hrest⟩
      rcases (Memory.mem_place rest a w d).1 hd with rfl | hd
      · have := h c (by simp)
        change c.1 < a
        change ¬ a < c.1 at hlt
        omega
      · exact hc d hd

/-- The canonical form as a proposition. -/
theorem Memory.wf_iff (m : Memory) :
    m.wf = true ↔ m.Pairwise (fun c d => c.1 < d.1) ∧ ∀ c ∈ m, c.2 ≠ unlistedByte c.1 := by
  simp [Memory.wf]

theorem Memory.inRange_iff (m : Memory) : m.inRange = true ↔ ∀ c ∈ m, c.1 < 4096 := by
  simp only [Memory.inRange, List.all_eq_true, decide_eq_true_eq]
  rfl

/-- A write keeps the canonical form. -/
theorem Memory.wf_write (m : Memory) (a : Nat) (w : Byte) (h : m.wf = true) : (m.write a w).wf = true := by
  rw [Memory.wf_iff] at h ⊢
  obtain ⟨hs, hv⟩ := h
  have hs' := hs.filter (p := fun c => decide (c.1 ≠ a))
  have hv' : ∀ c ∈ m.filter (fun c => c.1 ≠ a), c.2 ≠ unlistedByte c.1 := fun c hc => hv c (List.mem_filter.1 hc).1
  unfold Memory.write
  split
  · exact ⟨hs', hv'⟩
  · rename_i hw
    refine ⟨Memory.pairwise_place _ _ _ (by simp) hs', fun c hc => ?_⟩
    rcases (Memory.mem_place _ a w c).1 hc with rfl | hc
    · exact hw
    · exact hv' c hc

/-- A write inside the address space lists no address outside it. -/
theorem Memory.inRange_write (m : Memory) (a : Nat) (w : Byte) (ha : a < 4096) (h : m.inRange = true) :
    (m.write a w).inRange = true := by
  rw [Memory.inRange_iff] at h ⊢
  intro c hc
  unfold Memory.write at hc
  split at hc
  · exact h c (List.mem_filter.1 hc).1
  · rcases (Memory.mem_place _ a w c).1 hc with rfl | hc
    · exact ha
    · exact h c (List.mem_filter.1 hc).1

/-- A store of many bytes keeps the canonical form. -/
theorem Memory.wf_writeBytes (m : Memory) (a : Nat) (bytes : List Byte) (h : m.wf = true) :
    (m.writeBytes a bytes).wf = true := by
  induction bytes generalizing m a with
  | nil => exact h
  | cons w rest ih => exact ih _ _ (Memory.wf_write m a w h)

/-- A store of many bytes inside the address space lists no address outside it. -/
theorem Memory.inRange_writeBytes (m : Memory) (a : Nat) (bytes : List Byte) (ha : a + bytes.length ≤ 4096)
    (h : m.inRange = true) : (m.writeBytes a bytes).inRange = true := by
  induction bytes generalizing m a with
  | nil => exact h
  | cons w rest ih =>
    simp only [List.length_cons] at ha
    exact ih _ _ (by omega) (Memory.inRange_write m a w (by omega) h)

/-- Reset memory is in canonical form. -/
theorem Memory.wf_reset : State.reset.mem.wf = true := by decide

/-- Memory rebuilt from an image is in canonical form. -/
theorem Memory.wf_ofRom (image : List Byte) : (Memory.ofRom image).wf = true :=
  Memory.wf_writeBytes _ _ _ (by decide)

/-! ## Words -/

/-- The two halves of a word give it back (20_memory.md R42). -/
theorem wordOfBytes_halves (op : Word) : wordOfBytes (wordHi op) (wordLo op) = op := by
  apply BitVec.eq_of_getLsbD_eq
  intro j hj
  rw [wordOfBytes, BitVec.getLsbD_append]
  split
  · rename_i h; simp [wordLo, h]
  · rename_i h
    rw [wordHi, BitVec.getLsbD_extractLsb', show 8 + (j - 8) = j by omega]
    simp; omega

/-- The two bytes of a word stored high byte first read back as the word (20_memory.md R42, R53). -/
theorem Memory.word_writeBytes (m : Memory) (a : Nat) (op : Word) :
    (m.writeBytes a [wordHi op, wordLo op]).word a = op := by
  simp [Memory.word, Memory.read_writeBytes, wordOfBytes_halves]

end Sys2Proof.Machine
end

