-- ==== Sys2Proof/Laws/Display.lean ====
section
/-! SUPPORT. The laws of the display plane and of the sprite engine (44_display.md R140 to R144). -/

namespace Sys2Proof.Machine

/-- A cell outside the grid reads as 0. -/
theorem Plane.cell_outside (fb : Plane) (row col : Nat) (h : ¬ (row < 32 ∧ col < 64)) : fb.cell row col = false := by
  unfold Plane.cell
  by_cases hr : row < 32
  · exact BitVec.getLsbD_of_ge _ _ (by omega)
  · simp [Vector.getElem?_eq_none (Nat.le_of_not_lt hr)]

@[simp] theorem Plane.cell_clear (row col : Nat) : Plane.clear.cell row col = false := by
  by_cases h : row < 32
  · simp [Plane.cell, Plane.clear, Config.dispH, h]
  · exact Plane.cell_outside _ _ _ (by omega)

/-- A toggle inverts its own cell and no other. -/
theorem Plane.cell_toggle (fb : Plane) (row col r c : Nat) (hr : row < 32) (hc : col < 64) :
    (fb.toggle row col).cell r c = if r = row ∧ c = col then !fb.cell r c else fb.cell r c := by
  by_cases h : r = row
  · subst h
    by_cases h' : c = col
    · subst h'
      simp [Plane.cell, Plane.toggle, hr, hc]
    · simp [Plane.cell, Plane.toggle, hr, h', Ne.symm h']
  · have : ¬ row = r := fun e => h e.symm
    simp [Plane.cell, Plane.toggle, h, this]

/-- Two planes with equal cells are equal. -/
theorem Plane.ext_cells (a b : Plane) (h : ∀ row col, a.cell row col = b.cell row col) : a = b := by
  apply Vector.ext
  intro row hrow
  apply BitVec.eq_of_getLsbD_eq
  intro col _
  have := h row col
  simpa [Plane.cell, hrow] using this

/-- One pixel of a sprite, as it lands on a cell. -/
theorem drawPixel_cell (col row : Nat) (b : Byte) (p : Plane × Bool) (c r k : Nat) :
    (drawPixel col row b p c).1.cell r k =
      (p.1.cell r k ^^ (decide (r < 32) && decide (k < 64) && decide (r = row) && decide (k = col + c) &&
        b.getLsbD (7 - c))) := by
  unfold drawPixel Config.dispW Config.dispH
  split
  · rename_i h
    obtain ⟨hb, hc, hr⟩ := h
    rw [Plane.cell_toggle _ _ _ _ _ hr hc]
    by_cases h1 : r = row
    · by_cases h2 : k = col + c
      · subst h1 h2; simp [hb, hc, hr]
      · simp [h2]
    · simp [h1]
  · rename_i h
    by_cases h1 : r = row
    · by_cases h2 : k = col + c
      · subst h1 h2
        by_cases hb : b.getLsbD (7 - c) = true
        · have : ¬ (col + c < 64 ∧ r < 32) := fun e => h ⟨hb, e⟩
          have hd : (decide (r < 32) && decide (col + c < 64)) = false := by
            rw [Bool.and_eq_false_iff, decide_eq_false_iff_not, decide_eq_false_iff_not]; omega
          simp [hd]
        · simp [hb]
      · simp [h2]
    · simp [h1]

/-- One pixel of a sprite, as it counts for the collision. -/
theorem drawPixel_coll (col row : Nat) (b : Byte) (p : Plane × Bool) (c : Nat) :
    (drawPixel col row b p c).2 = (p.2 || (b.getLsbD (7 - c) && p.1.cell row (col + c))) := by
  unfold drawPixel Config.dispW Config.dispH
  split
  · rename_i h; simp [h.1]
  · rename_i h
    by_cases hb : b.getLsbD (7 - c) = true
    · rw [Plane.cell_outside p.1 row (col + c) (fun e => h ⟨hb, e.2, e.1⟩)]; simp
    · simp [hb]

/-- The pixels of a row byte that the first `j` of its bits give. -/
def rowPixel (col row : Nat) (b : Byte) (j r k : Nat) : Bool :=
  decide (r < 32) && decide (k < 64) && decide (r = row) && decide (col ≤ k) && decide (k < col + j) &&
    b.getLsbD (7 - (k - col))

theorem drawPixels_spec (col row : Nat) (b : Byte) (p : Plane × Bool) (j : Nat) :
    (∀ r k, ((List.range j).foldl (drawPixel col row b) p).1.cell r k =
      (p.1.cell r k ^^ rowPixel col row b j r k)) ∧
    (((List.range j).foldl (drawPixel col row b) p).2 = true ↔
      p.2 = true ∨ ∃ r k, rowPixel col row b j r k = true ∧ p.1.cell r k = true) := by
  induction j with
  | zero =>
    have h0 : ∀ r k, rowPixel col row b 0 r k = false := fun r k => by
      by_cases h : col ≤ k
      · simp [rowPixel, show ¬ k < col by omega]
      · simp [rowPixel, h]
    simp [h0]
  | succ j ih =>
    obtain ⟨ihc, ihb⟩ := ih
    rw [List.range_succ, List.foldl_append]
    simp only [List.foldl_cons, List.foldl_nil]
    constructor
    · intro r k
      rw [drawPixel_cell, ihc, Bool.xor_assoc]
      congr 1
      unfold rowPixel
      by_cases h1 : r = row
      · by_cases h2 : k = col + j
        · subst h1 h2; simp
        · by_cases h3 : k < col + j
          · simp [h2, h3, show k < col + (j + 1) by omega]
          · simp [h2, h3, show ¬ k < col + (j + 1) by omega]
      · simp [h1]
    · rw [drawPixel_coll, Bool.or_eq_true, ihb, Bool.and_eq_true, ihc]
      have hnew : rowPixel col row b j row (col + j) = false := by simp [rowPixel]
      rw [hnew, Bool.xor_false]
      constructor
      · rintro ((h | ⟨r, k, hp, hc⟩) | ⟨hb, hc⟩)
        · exact .inl h
        · refine .inr ⟨r, k, ?_, hc⟩
          simp only [rowPixel, Bool.and_eq_true, decide_eq_true_eq] at hp ⊢
          exact ⟨⟨hp.1.1, Nat.lt_succ_of_lt hp.1.2⟩, hp.2⟩
        · refine .inr ⟨row, col + j, ?_, hc⟩
          have hin : row < 32 ∧ col + j < 64 := by
            by_contra h'
            rw [Plane.cell_outside _ _ _ h'] at hc
            cases hc
          simp [rowPixel, hin, hb]
      · rintro (h | ⟨r, k, hp, hc⟩)
        · exact .inl (.inl h)
        · simp only [rowPixel, Bool.and_eq_true, decide_eq_true_eq] at hp
          obtain ⟨⟨⟨⟨⟨h1, h2⟩, h3⟩, h4⟩, h5⟩, h6⟩ := hp
          by_cases h7 : k = col + j
          · subst h3 h7
            refine .inr ⟨by simpa using h6, hc⟩
          · refine .inl (.inr ⟨r, k, ?_, hc⟩)
            simp [rowPixel, h3 ▸ h1, h2, h3, h4, h6, show k < col + j by omega]

/-- The sprite pixel that `bytes` drawn at origin `(X, Y)` put on cell `(row, col)`, wherever the grid ends. -/
def spritePixel (X Y : Nat) (bytes : List Byte) (row col : Nat) : Bool :=
  decide (Y ≤ row) && decide (X ≤ col) && decide (col < X + 8) &&
    match bytes[row - Y]? with
    | some b => b.getLsbD (7 - (col - X))
    | none => false

/-- A sprite pixel inside the grid. -/
def inGridPixel (X Y : Nat) (bytes : List Byte) (r k : Nat) : Bool :=
  decide (r < 32) && decide (k < 64) && spritePixel X Y bytes r k

theorem inGridPixel_cons (X Y : Nat) (b : Byte) (bs : List Byte) (r k : Nat) :
    inGridPixel X Y (b :: bs) r k = (rowPixel X Y b 8 r k ^^ inGridPixel X (Y + 1) bs r k) := by
  unfold inGridPixel rowPixel spritePixel
  rcases Nat.lt_trichotomy r Y with h | h | h
  · simp [show ¬ Y ≤ r by omega, show ¬ Y + 1 ≤ r by omega, show ¬ r = Y by omega]
  · subst h; simp [Bool.and_assoc]
  · obtain ⟨d, rfl⟩ : ∃ d, r = Y + 1 + d := ⟨r - (Y + 1), by omega⟩
    simp [show Y ≤ Y + 1 + d by omega, show ¬ Y + 1 + d = Y by omega, show Y + 1 + d - Y = d + 1 by omega]

theorem rowPixel_exclusive (X Y : Nat) (b : Byte) (bs : List Byte) (r k : Nat) (h : rowPixel X Y b 8 r k = true) :
    inGridPixel X (Y + 1) bs r k = false := by
  simp only [rowPixel, Bool.and_eq_true, decide_eq_true_eq] at h
  simp [inGridPixel, spritePixel, show ¬ Y + 1 ≤ r by omega]

/-- Everything `drawRows` does, cell by cell, and when it reports a collision. -/
theorem drawRows_spec (X Y : Nat) (bytes : List Byte) (p : Plane × Bool) :
    (∀ r k, (drawRows X Y bytes p).1.cell r k = (p.1.cell r k ^^ inGridPixel X Y bytes r k)) ∧
    ((drawRows X Y bytes p).2 = true ↔
      p.2 = true ∨ ∃ r k, inGridPixel X Y bytes r k = true ∧ p.1.cell r k = true) := by
  induction bytes generalizing Y p with
  | nil => simp [drawRows, inGridPixel, spritePixel]
  | cons b bs ih =>
    obtain ⟨rowc, rowb⟩ := drawPixels_spec X Y b p 8
    obtain ⟨ihc, ihb⟩ := ih (Y + 1) (drawByte X Y b p)
    refine ⟨fun r k => ?_, ?_⟩
    · rw [drawRows, ihc, drawByte, rowc, Bool.xor_assoc, inGridPixel_cons]
    · rw [drawRows, ihb, drawByte, rowb, or_assoc]
      refine or_congr_right ⟨?_, ?_⟩
      · rintro (⟨r, k, hp, hc⟩ | ⟨r, k, hp, hc⟩)
        · exact ⟨r, k, by rw [inGridPixel_cons, hp, rowPixel_exclusive _ _ _ bs _ _ hp]; rfl, hc⟩
        · have hrow : rowPixel X Y b 8 r k = false := by
            by_contra hne
            rw [rowPixel_exclusive X Y b bs r k (by simpa using hne)] at hp
            cases hp
          rw [rowc, hrow, Bool.xor_false] at hc
          exact ⟨r, k, by rw [inGridPixel_cons, hrow, hp]; rfl, hc⟩
      · rintro ⟨r, k, hp, hc⟩
        rw [inGridPixel_cons] at hp
        by_cases hrow : rowPixel X Y b 8 r k = true
        · exact .inl ⟨r, k, hrow, hc⟩
        · have hrow' : rowPixel X Y b 8 r k = false := by simpa using hrow
          rw [hrow', Bool.false_xor] at hp
          refine .inr ⟨r, k, hp, ?_⟩
          rw [rowc, hrow', Bool.xor_false]
          exact hc

/-- `draw` XORs the sprite's pixels inside the grid into the plane (R142, R143). -/
theorem Plane.cell_draw (fb : Plane) (X Y : Nat) (bytes : List Byte) (r k : Nat) :
    (fb.draw X Y bytes).1.cell r k = (fb.cell r k ^^ inGridPixel X Y bytes r k) :=
  (drawRows_spec X Y bytes (fb, false)).1 r k

/-- `draw` reports whether a set pixel inside the grid met a set cell (R144). -/
theorem Plane.draw_collides (fb : Plane) (X Y : Nat) (bytes : List Byte) :
    (fb.draw X Y bytes).2 = true ↔ ∃ r k, inGridPixel X Y bytes r k = true ∧ fb.cell r k = true := by
  rw [Plane.draw, (drawRows_spec X Y bytes (fb, false)).2]
  simp

/-- The pixels of a sprite read from memory are the bits `State.spriteBit` names. -/
theorem inGridPixel_readBytes (s : State) (x y : RegIdx) (n : Nibble) (r k : Nat) :
    inGridPixel (s.reg x).toNat (s.reg y).toNat (s.mem.readBytes s.i.toNat n.toNat) r k =
      (decide (r < 32) && decide (k < 64) && s.spriteBit x y n r k) := by
  simp only [inGridPixel, spritePixel, State.spriteBit, Memory.getElem?_readBytes]
  by_cases h1 : (s.reg y).toNat ≤ r
  · by_cases h2 : r - (s.reg y).toNat < n.toNat
    · simp [h1, h2, show r < (s.reg y).toNat + n.toNat by omega]
    · simp [h1, h2, show ¬ r < (s.reg y).toNat + n.toNat by omega]
  · simp [h1]

end Sys2Proof.Machine
end

