-- ==== Sys2Proof/Laws/State.lean ====
section
/-! SUPPORT. One lemma per field per update of State, so that no proof unfolds a record update. -/

namespace Sys2Proof.Machine

/-! ## setReg -/

@[simp] theorem State.setReg_v (s : State) (x : RegIdx) (b : Byte) : (s.setReg x b).v = s.v.set x.toNat b x.isLt := rfl
@[simp] theorem State.setReg_i (s : State) (x : RegIdx) (b : Byte) : (s.setReg x b).i = s.i := rfl
@[simp] theorem State.setReg_pc (s : State) (x : RegIdx) (b : Byte) : (s.setReg x b).pc = s.pc := rfl
@[simp] theorem State.setReg_stk (s : State) (x : RegIdx) (b : Byte) : (s.setReg x b).stk = s.stk := rfl
@[simp] theorem State.setReg_fb (s : State) (x : RegIdx) (b : Byte) : (s.setReg x b).fb = s.fb := rfl
@[simp] theorem State.setReg_keys (s : State) (x : RegIdx) (b : Byte) : (s.setReg x b).keys = s.keys := rfl
@[simp] theorem State.setReg_run (s : State) (x : RegIdx) (b : Byte) : (s.setReg x b).run = s.run := rfl
@[simp] theorem State.setReg_kx (s : State) (x : RegIdx) (b : Byte) : (s.setReg x b).kx = s.kx := rfl
@[simp] theorem State.setReg_err (s : State) (x : RegIdx) (b : Byte) : (s.setReg x b).err = s.err := rfl
@[simp] theorem State.setReg_mem (s : State) (x : RegIdx) (b : Byte) : (s.setReg x b).mem = s.mem := rfl
@[simp] theorem State.setReg_rom (s : State) (x : RegIdx) (b : Byte) : (s.setReg x b).rom = s.rom := rfl
@[simp] theorem State.setReg_randDraws (s : State) (x : RegIdx) (b : Byte) : (s.setReg x b).randDraws = s.randDraws := rfl
@[simp] theorem State.setReg_timerDraws (s : State) (x : RegIdx) (b : Byte) : (s.setReg x b).timerDraws = s.timerDraws := rfl
@[simp] theorem State.setReg_errDraws (s : State) (x : RegIdx) (b : Byte) : (s.setReg x b).errDraws = s.errDraws := rfl

/-! ## advance -/

@[simp] theorem State.advance_v (s : State) : s.advance.v = s.v := rfl
@[simp] theorem State.advance_i (s : State) : s.advance.i = s.i := rfl
@[simp] theorem State.advance_pc (s : State) : s.advance.pc = s.pc + 2#16 := rfl
@[simp] theorem State.advance_stk (s : State) : s.advance.stk = s.stk := rfl
@[simp] theorem State.advance_fb (s : State) : s.advance.fb = s.fb := rfl
@[simp] theorem State.advance_keys (s : State) : s.advance.keys = s.keys := rfl
@[simp] theorem State.advance_run (s : State) : s.advance.run = s.run := rfl
@[simp] theorem State.advance_kx (s : State) : s.advance.kx = s.kx := rfl
@[simp] theorem State.advance_err (s : State) : s.advance.err = s.err := rfl
@[simp] theorem State.advance_mem (s : State) : s.advance.mem = s.mem := rfl
@[simp] theorem State.advance_rom (s : State) : s.advance.rom = s.rom := rfl
@[simp] theorem State.advance_randDraws (s : State) : s.advance.randDraws = s.randDraws := rfl
@[simp] theorem State.advance_timerDraws (s : State) : s.advance.timerDraws = s.timerDraws := rfl
@[simp] theorem State.advance_errDraws (s : State) : s.advance.errDraws = s.errDraws := rfl

/-! ## jump -/

@[simp] theorem State.jump_v (s : State) (w : Word) : (s.jump w).v = s.v := rfl
@[simp] theorem State.jump_i (s : State) (w : Word) : (s.jump w).i = s.i := rfl
@[simp] theorem State.jump_pc (s : State) (w : Word) : (s.jump w).pc = w := rfl
@[simp] theorem State.jump_stk (s : State) (w : Word) : (s.jump w).stk = s.stk := rfl
@[simp] theorem State.jump_fb (s : State) (w : Word) : (s.jump w).fb = s.fb := rfl
@[simp] theorem State.jump_keys (s : State) (w : Word) : (s.jump w).keys = s.keys := rfl
@[simp] theorem State.jump_run (s : State) (w : Word) : (s.jump w).run = s.run := rfl
@[simp] theorem State.jump_kx (s : State) (w : Word) : (s.jump w).kx = s.kx := rfl
@[simp] theorem State.jump_err (s : State) (w : Word) : (s.jump w).err = s.err := rfl
@[simp] theorem State.jump_mem (s : State) (w : Word) : (s.jump w).mem = s.mem := rfl
@[simp] theorem State.jump_rom (s : State) (w : Word) : (s.jump w).rom = s.rom := rfl
@[simp] theorem State.jump_randDraws (s : State) (w : Word) : (s.jump w).randDraws = s.randDraws := rfl
@[simp] theorem State.jump_timerDraws (s : State) (w : Word) : (s.jump w).timerDraws = s.timerDraws := rfl
@[simp] theorem State.jump_errDraws (s : State) (w : Word) : (s.jump w).errDraws = s.errDraws := rfl

/-! ## skipIf -/

@[simp] theorem State.skipIf_v (s : State) (c : Bool) : (s.skipIf c).v = s.v := rfl
@[simp] theorem State.skipIf_i (s : State) (c : Bool) : (s.skipIf c).i = s.i := rfl
@[simp] theorem State.skipIf_pc (s : State) (c : Bool) : (s.skipIf c).pc = s.pc + (if c then 4#16 else 2#16) := rfl
@[simp] theorem State.skipIf_stk (s : State) (c : Bool) : (s.skipIf c).stk = s.stk := rfl
@[simp] theorem State.skipIf_fb (s : State) (c : Bool) : (s.skipIf c).fb = s.fb := rfl
@[simp] theorem State.skipIf_keys (s : State) (c : Bool) : (s.skipIf c).keys = s.keys := rfl
@[simp] theorem State.skipIf_run (s : State) (c : Bool) : (s.skipIf c).run = s.run := rfl
@[simp] theorem State.skipIf_kx (s : State) (c : Bool) : (s.skipIf c).kx = s.kx := rfl
@[simp] theorem State.skipIf_err (s : State) (c : Bool) : (s.skipIf c).err = s.err := rfl
@[simp] theorem State.skipIf_mem (s : State) (c : Bool) : (s.skipIf c).mem = s.mem := rfl
@[simp] theorem State.skipIf_rom (s : State) (c : Bool) : (s.skipIf c).rom = s.rom := rfl
@[simp] theorem State.skipIf_randDraws (s : State) (c : Bool) : (s.skipIf c).randDraws = s.randDraws := rfl
@[simp] theorem State.skipIf_timerDraws (s : State) (c : Bool) : (s.skipIf c).timerDraws = s.timerDraws := rfl
@[simp] theorem State.skipIf_errDraws (s : State) (c : Bool) : (s.skipIf c).errDraws = s.errDraws := rfl

/-! ## setI -/

@[simp] theorem State.setI_v (s : State) (w : Word) : (s.setI w).v = s.v := rfl
@[simp] theorem State.setI_i (s : State) (w : Word) : (s.setI w).i = w := rfl
@[simp] theorem State.setI_pc (s : State) (w : Word) : (s.setI w).pc = s.pc := rfl
@[simp] theorem State.setI_stk (s : State) (w : Word) : (s.setI w).stk = s.stk := rfl
@[simp] theorem State.setI_fb (s : State) (w : Word) : (s.setI w).fb = s.fb := rfl
@[simp] theorem State.setI_keys (s : State) (w : Word) : (s.setI w).keys = s.keys := rfl
@[simp] theorem State.setI_run (s : State) (w : Word) : (s.setI w).run = s.run := rfl
@[simp] theorem State.setI_kx (s : State) (w : Word) : (s.setI w).kx = s.kx := rfl
@[simp] theorem State.setI_err (s : State) (w : Word) : (s.setI w).err = s.err := rfl
@[simp] theorem State.setI_mem (s : State) (w : Word) : (s.setI w).mem = s.mem := rfl
@[simp] theorem State.setI_rom (s : State) (w : Word) : (s.setI w).rom = s.rom := rfl
@[simp] theorem State.setI_randDraws (s : State) (w : Word) : (s.setI w).randDraws = s.randDraws := rfl
@[simp] theorem State.setI_timerDraws (s : State) (w : Word) : (s.setI w).timerDraws = s.timerDraws := rfl
@[simp] theorem State.setI_errDraws (s : State) (w : Word) : (s.setI w).errDraws = s.errDraws := rfl

/-! ## push -/

@[simp] theorem State.push_v (s : State) (w : Word) : (s.push w).v = s.v := rfl
@[simp] theorem State.push_i (s : State) (w : Word) : (s.push w).i = s.i := rfl
@[simp] theorem State.push_pc (s : State) (w : Word) : (s.push w).pc = s.pc := rfl
@[simp] theorem State.push_stk (s : State) (w : Word) : (s.push w).stk = w :: s.stk := rfl
@[simp] theorem State.push_fb (s : State) (w : Word) : (s.push w).fb = s.fb := rfl
@[simp] theorem State.push_keys (s : State) (w : Word) : (s.push w).keys = s.keys := rfl
@[simp] theorem State.push_run (s : State) (w : Word) : (s.push w).run = s.run := rfl
@[simp] theorem State.push_kx (s : State) (w : Word) : (s.push w).kx = s.kx := rfl
@[simp] theorem State.push_err (s : State) (w : Word) : (s.push w).err = s.err := rfl
@[simp] theorem State.push_mem (s : State) (w : Word) : (s.push w).mem = s.mem := rfl
@[simp] theorem State.push_rom (s : State) (w : Word) : (s.push w).rom = s.rom := rfl
@[simp] theorem State.push_randDraws (s : State) (w : Word) : (s.push w).randDraws = s.randDraws := rfl
@[simp] theorem State.push_timerDraws (s : State) (w : Word) : (s.push w).timerDraws = s.timerDraws := rfl
@[simp] theorem State.push_errDraws (s : State) (w : Word) : (s.push w).errDraws = s.errDraws := rfl

/-! ## pop -/

@[simp] theorem State.pop_v (s : State) : s.pop.v = s.v := rfl
@[simp] theorem State.pop_i (s : State) : s.pop.i = s.i := rfl
@[simp] theorem State.pop_pc (s : State) : s.pop.pc = s.pc := rfl
@[simp] theorem State.pop_stk (s : State) : s.pop.stk = s.stk.tail := rfl
@[simp] theorem State.pop_fb (s : State) : s.pop.fb = s.fb := rfl
@[simp] theorem State.pop_keys (s : State) : s.pop.keys = s.keys := rfl
@[simp] theorem State.pop_run (s : State) : s.pop.run = s.run := rfl
@[simp] theorem State.pop_kx (s : State) : s.pop.kx = s.kx := rfl
@[simp] theorem State.pop_err (s : State) : s.pop.err = s.err := rfl
@[simp] theorem State.pop_mem (s : State) : s.pop.mem = s.mem := rfl
@[simp] theorem State.pop_rom (s : State) : s.pop.rom = s.rom := rfl
@[simp] theorem State.pop_randDraws (s : State) : s.pop.randDraws = s.randDraws := rfl
@[simp] theorem State.pop_timerDraws (s : State) : s.pop.timerDraws = s.timerDraws := rfl
@[simp] theorem State.pop_errDraws (s : State) : s.pop.errDraws = s.errDraws := rfl

/-! ## setResultFlag -/

@[simp] theorem State.setResultFlag_i (s : State) (x : RegIdx) (b : Byte) (c : Bool) : (s.setResultFlag x b c).i = s.i := rfl
@[simp] theorem State.setResultFlag_pc (s : State) (x : RegIdx) (b : Byte) (c : Bool) : (s.setResultFlag x b c).pc = s.pc := rfl
@[simp] theorem State.setResultFlag_stk (s : State) (x : RegIdx) (b : Byte) (c : Bool) : (s.setResultFlag x b c).stk = s.stk := rfl
@[simp] theorem State.setResultFlag_fb (s : State) (x : RegIdx) (b : Byte) (c : Bool) : (s.setResultFlag x b c).fb = s.fb := rfl
@[simp] theorem State.setResultFlag_keys (s : State) (x : RegIdx) (b : Byte) (c : Bool) : (s.setResultFlag x b c).keys = s.keys := rfl
@[simp] theorem State.setResultFlag_run (s : State) (x : RegIdx) (b : Byte) (c : Bool) : (s.setResultFlag x b c).run = s.run := rfl
@[simp] theorem State.setResultFlag_kx (s : State) (x : RegIdx) (b : Byte) (c : Bool) : (s.setResultFlag x b c).kx = s.kx := rfl
@[simp] theorem State.setResultFlag_err (s : State) (x : RegIdx) (b : Byte) (c : Bool) : (s.setResultFlag x b c).err = s.err := rfl
@[simp] theorem State.setResultFlag_mem (s : State) (x : RegIdx) (b : Byte) (c : Bool) : (s.setResultFlag x b c).mem = s.mem := rfl
@[simp] theorem State.setResultFlag_rom (s : State) (x : RegIdx) (b : Byte) (c : Bool) : (s.setResultFlag x b c).rom = s.rom := rfl
@[simp] theorem State.setResultFlag_randDraws (s : State) (x : RegIdx) (b : Byte) (c : Bool) : (s.setResultFlag x b c).randDraws = s.randDraws := rfl
@[simp] theorem State.setResultFlag_timerDraws (s : State) (x : RegIdx) (b : Byte) (c : Bool) : (s.setResultFlag x b c).timerDraws = s.timerDraws := rfl
@[simp] theorem State.setResultFlag_errDraws (s : State) (x : RegIdx) (b : Byte) (c : Bool) : (s.setResultFlag x b c).errDraws = s.errDraws := rfl

/-! ## raise -/

@[simp] theorem State.raise_v (s : State) (k : ErrKind) (op : Option Word) (a : Option FaultAddr) : (s.raise k op a).v = s.v := rfl
@[simp] theorem State.raise_i (s : State) (k : ErrKind) (op : Option Word) (a : Option FaultAddr) : (s.raise k op a).i = s.i := rfl
@[simp] theorem State.raise_pc (s : State) (k : ErrKind) (op : Option Word) (a : Option FaultAddr) : (s.raise k op a).pc = s.pc := rfl
@[simp] theorem State.raise_stk (s : State) (k : ErrKind) (op : Option Word) (a : Option FaultAddr) : (s.raise k op a).stk = s.stk := rfl
@[simp] theorem State.raise_fb (s : State) (k : ErrKind) (op : Option Word) (a : Option FaultAddr) : (s.raise k op a).fb = s.fb := rfl
@[simp] theorem State.raise_keys (s : State) (k : ErrKind) (op : Option Word) (a : Option FaultAddr) : (s.raise k op a).keys = s.keys := rfl
@[simp] theorem State.raise_run (s : State) (k : ErrKind) (op : Option Word) (a : Option FaultAddr) : (s.raise k op a).run = .haltedByError := rfl
@[simp] theorem State.raise_kx (s : State) (k : ErrKind) (op : Option Word) (a : Option FaultAddr) : (s.raise k op a).kx = s.kx := rfl
@[simp] theorem State.raise_err (s : State) (k : ErrKind) (op : Option Word) (a : Option FaultAddr) : (s.raise k op a).err = ⟨k, op.getD (Config.errOp s.errDraws), s.pc, a.getD (Config.errAddr s.errDraws)⟩ := rfl
@[simp] theorem State.raise_mem (s : State) (k : ErrKind) (op : Option Word) (a : Option FaultAddr) : (s.raise k op a).mem = s.mem := rfl
@[simp] theorem State.raise_rom (s : State) (k : ErrKind) (op : Option Word) (a : Option FaultAddr) : (s.raise k op a).rom = s.rom := rfl
@[simp] theorem State.raise_randDraws (s : State) (k : ErrKind) (op : Option Word) (a : Option FaultAddr) : (s.raise k op a).randDraws = s.randDraws := rfl
@[simp] theorem State.raise_timerDraws (s : State) (k : ErrKind) (op : Option Word) (a : Option FaultAddr) : (s.raise k op a).timerDraws = s.timerDraws := rfl
@[simp] theorem State.raise_errDraws (s : State) (k : ErrKind) (op : Option Word) (a : Option FaultAddr) : (s.raise k op a).errDraws = s.errDraws + 1 := rfl

/-! ## Register reads -/

@[simp] theorem State.reg_setReg_same (s : State) (x : RegIdx) (b : Byte) : (s.setReg x b).reg x = b := by
  simp [State.reg, State.setReg]

theorem State.reg_setReg_ne (s : State) (x r : RegIdx) (b : Byte) (h : r ≠ x) : (s.setReg x b).reg r = s.reg r := by
  have : x.toNat ≠ r.toNat := fun e => h (BitVec.eq_of_toNat_eq e.symm)
  simp [State.reg, State.setReg, this]

theorem State.reg_setReg (s : State) (x r : RegIdx) (b : Byte) :
    (s.setReg x b).reg r = if r = x then b else s.reg r := by
  by_cases h : r = x
  · subst h; simp
  · simp [h, State.reg_setReg_ne]

/-- A register read depends on the register file alone. -/
theorem State.reg_congr {s t : State} (h : t.v = s.v) (r : RegIdx) : t.reg r = s.reg r := by
  simp [State.reg, h]

@[simp] theorem State.advance_reg (s : State) (r : RegIdx) : s.advance.reg r = s.reg r := rfl
@[simp] theorem State.jump_reg (s : State) (w : Word) (r : RegIdx) : (s.jump w).reg r = s.reg r := rfl
@[simp] theorem State.skipIf_reg (s : State) (c : Bool) (r : RegIdx) : (s.skipIf c).reg r = s.reg r := rfl
@[simp] theorem State.setI_reg (s : State) (w : Word) (r : RegIdx) : (s.setI w).reg r = s.reg r := rfl
@[simp] theorem State.push_reg (s : State) (w : Word) (r : RegIdx) : (s.push w).reg r = s.reg r := rfl
@[simp] theorem State.pop_reg (s : State) (r : RegIdx) : s.pop.reg r = s.reg r := rfl
@[simp] theorem State.raise_reg (s : State) (k : ErrKind) (op : Option Word) (a : Option FaultAddr) (r : RegIdx) : (s.raise k op a).reg r = s.reg r := rfl

theorem State.reg_setResultFlag (s : State) (x r : RegIdx) (b : Byte) (c : Bool) :
    (s.setResultFlag x b c).reg r = if r = vfIdx then flagByte c else if r = x then b else s.reg r := by
  simp [State.setResultFlag, State.reg_setReg]

/-- What `finishFlagged` does under the alias policy of this hardware (42_load_and_alu.md R110). -/
theorem State.finishFlagged_eq (s : State) (n : Bool) (x : RegIdx) (b : Byte) (c : Bool) :
    s.finishFlagged n x b c = .next (s.setResultFlag x b c).advance := by
  cases n <;> rfl

/-- What `keyTest` answers under the key policy of this hardware (45_input_and_timers.md R152). -/
theorem State.keyTest_eq (s : State) (v : Byte) :
    s.keyTest Params.keyIndexPolicy v = .ok (s.key (v.toNat % 16)) := by
  simp [State.keyTest, Params.keyIndexPolicy]

/-! ## Stack -/

@[simp] theorem State.sp_push (s : State) (w : Word) : (s.push w).sp = s.sp + 1 := rfl
@[simp] theorem State.sp_pop (s : State) : s.pop.sp = s.sp - 1 := by simp [State.sp]

theorem State.stkEntry_push (s : State) (w : Word) (j : Nat) :
    (s.push w).stkEntry j = if j = s.sp then some w else s.stkEntry j := by
  simp only [State.stkEntry, State.push_stk, List.reverse_cons, State.sp]
  rcases Nat.lt_trichotomy j s.stk.length with h | h | h
  · rw [List.getElem?_append_left (by simpa using h)]; simp [Nat.ne_of_lt h]
  · subst h; simp
  · rw [List.getElem?_eq_none (by simp; omega), List.getElem?_eq_none (by simp; omega)]
    simp [Nat.ne_of_gt h]

theorem reverse_tail_getElem? (l : List Word) (j : Nat) :
    l.tail.reverse[j]? = if j + 1 = l.length then none else l.reverse[j]? := by
  cases l with
  | nil => simp
  | cons t rest =>
    simp only [List.tail_cons, List.reverse_cons, List.length_cons]
    rcases Nat.lt_trichotomy j rest.length with h | h | h
    · rw [List.getElem?_append_left (by simpa using h)]; simp [Nat.ne_of_lt h]
    · subst h; simp
    · rw [List.getElem?_eq_none (by simp; omega), List.getElem?_eq_none (by simp; omega)]; simp

theorem State.stkEntry_pop (s : State) (j : Nat) :
    s.pop.stkEntry j = if j + 1 = s.sp then none else s.stkEntry j :=
  reverse_tail_getElem? s.stk j

/-- The top entry is `STK[SP - 1]` (10_state.md R14). -/
theorem State.stkEntry_top (s : State) (t : Word) (rest : List Word) (h : s.stk = t :: rest) :
    s.stkEntry (s.sp - 1) = some t := by
  simp [State.stkEntry, State.sp, h]

/-! ## Bounds -/

theorem dataFault_none_iff (i : Word) (k : Nat) : dataFault i k = none ↔ k = 0 ∨ i.toNat + k ≤ 0x1000 := by
  unfold dataFault Config.memTop
  split <;> simp <;> omega

theorem dataFault_some (i : Word) (k : Nat) (h : 0 < k) (h' : 0x1000 < i.toNat + k) :
    dataFault i k = some (BitVec.ofNat 17 (max i.toNat 0x1000)) := by
  unfold dataFault Config.memTop Config.memSize
  rw [if_pos ⟨h, by omega⟩]

/-- The reported address loses no bit in 17 bits (10_state.md R19). -/
theorem max_addr_fits (i : Word) : (BitVec.ofNat 17 (max i.toNat 0x1000)).toNat = max i.toNat 0x1000 := by
  have := i.isLt
  simp only [BitVec.toNat_ofNat]
  apply Nat.mod_eq_of_lt
  omega

/-- Everything a data access can do: take effect, or raise before any effect (20_memory.md R47). -/
theorem State.accessing_cases (s t : State) (k : Nat) :
    (dataFault s.i k = none ∧ s.accessing k t = t) ∨
    (∃ a, dataFault s.i k = some a ∧ s.accessing k t = s.raiseBounds a) := by
  unfold State.accessing
  cases h : dataFault s.i k with
  | none => exact .inl ⟨rfl, rfl⟩
  | some a => exact .inr ⟨a, rfl, rfl⟩

/-- Everything a fetch can answer (20_memory.md R46). -/
theorem State.fetch_cases (s : State) :
    (s.pc.toNat ≤ 0xFFE ∧ s.fetch = .ok (s.mem.word s.pc.toNat)) ∨
    (0xFFF ≤ s.pc.toNat ∧ ∃ a, s.fetch = .error a ∧ a.toNat = max s.pc.toNat 0x1000) := by
  unfold State.fetch Config.memTop Config.memSize
  have := s.pc.isLt
  split
  · exact .inl ⟨by omega, rfl⟩
  · refine .inr ⟨by omega, _, rfl, ?_⟩
    split
    · rename_i h; simp [h]
    · rw [BitVec.toNat_setWidth, Nat.mod_eq_of_lt (by omega)]; omega

end Sys2Proof.Machine
end

