-- ==== Sys2Proof/Laws/Exec.lean ====
section
/-! SUPPORT. What the meanings do, said once: the block register operations, the key latch, and the next state of every
instruction. -/

namespace Sys2Proof.Machine

/-! ## Block transfers of registers (43_index_and_memory.md R134, R135) -/

theorem loadRegs_getElem (v : Vector Byte 16) (j : Nat) (bytes : List Byte) (r : Nat) (hr : r < 16) :
    (loadRegs v j bytes)[r] = if j ≤ r ∧ r < j + bytes.length then bytes.getD (r - j) 0#8 else v[r] := by
  induction bytes generalizing v j with
  | nil => rw [if_neg (by simp)]; rfl
  | cons b rest ih =>
    rw [loadRegs, ih]
    simp only [List.length_cons]
    by_cases h : r = j
    · subst h; simp
    · by_cases h' : j ≤ r
      · obtain ⟨d, rfl⟩ : ∃ d, r = j + 1 + d := ⟨r - (j + 1), by omega⟩
        by_cases hd : d < rest.length
        · rw [if_pos (by omega), if_pos (by omega)]
          rw [show j + 1 + d - (j + 1) = d by omega, show j + 1 + d - j = d + 1 by omega]
          simp
        · rw [if_neg (by omega), if_neg (by omega), Vector.getElem_setIfInBounds, if_neg (by omega)]
      · rw [if_neg (by omega), if_neg (by omega), Vector.getElem_setIfInBounds, if_neg (by omega)]

/-- What a register holds after `LD Vx,[I]` loaded `k` bytes of memory from `a` on. -/
theorem State.reg_loadRegs (s : State) (a k : Nat) (r : RegIdx) :
    ({ s with v := loadRegs s.v 0 (s.mem.readBytes a k) } : State).reg r =
      if r.toNat < k then s.mem.read (a + r.toNat) else s.reg r := by
  have hr := r.isLt
  simp only [State.reg]
  rw [loadRegs_getElem _ _ _ _ hr, Memory.readBytes_length]
  by_cases h : r.toNat < k
  · simp [h, Memory.getElem?_readBytes]
  · simp [h]

theorem State.regsUpTo_length (s : State) (x : RegIdx) : (s.regsUpTo x).length = x.toNat + 1 := by
  have := x.isLt
  simp [State.regsUpTo]
  omega

/-- The `j`-th byte that `LD [I],Vx` stores is `V[j]`. -/
theorem State.getElem?_regsUpTo (s : State) (x : RegIdx) (r : RegIdx) (h : r.toNat ≤ x.toNat) :
    (s.regsUpTo x)[r.toNat]? = some (s.reg r) := by
  have := r.isLt
  simp [State.regsUpTo, State.reg, show r.toNat < x.toNat + 1 by omega]

theorem bcdDigits_length (v : Byte) : (bcdDigits v).length = 3 := rfl

/-! ## Key latch (10_state.md R16) -/

theorem State.key_outside (s : State) (k : Nat) (h : 16 ≤ k) : s.key k = false := by
  simp [State.key, Vector.getElem?_eq_none h]

theorem State.key_setKey (s : State) (code k : Nat) (b : Bool) :
    (s.setKey code b).key k = if k = code ∧ code < 16 then b else s.key k := by
  unfold State.setKey keyCodeValid Config.nKeys
  by_cases hc : code < 16
  · by_cases hk : k = code
    · subst hk; simp [hc, State.key]
    · simp [hc, State.key, hk, Ne.symm hk]
  · simp [hc]

/-- `lowestKey` finds the lowest pressed key (45_input_and_timers.md R154). -/
theorem State.lowestKey_some (s : State) (k : Nat) :
    s.lowestKey = some k ↔ s.key k = true ∧ ∀ j < k, s.key j = false := by
  unfold State.lowestKey Config.nKeys
  rw [List.find?_range_eq_some]
  constructor
  · rintro ⟨h1, _, h2⟩
    exact ⟨h1, fun j hj => by simpa using h2 j hj⟩
  · rintro ⟨h1, h2⟩
    refine ⟨h1, ?_, fun j hj => by simp [h2 j hj]⟩
    by_contra h3
    rw [State.key_outside s k (by simpa using h3)] at h1
    cases h1

/-- `lowestKey` finds none exactly when no key is down. -/
theorem State.lowestKey_none (s : State) : s.lowestKey = none ↔ ∀ k, s.key k = false := by
  unfold State.lowestKey Config.nKeys
  rw [List.find?_range_eq_none]
  constructor
  · intro h k
    by_cases hk : k < 16
    · simpa using h k hk
    · exact State.key_outside s k (by omega)
  · intro h k _
    simp [h k]

/-! ## Operands and flags -/

theorem addrOperand_toNat (nnn : Addr) : (addrOperand nnn).toNat = nnn.toNat := by
  have := nnn.isLt
  simp [addrOperand]
  omega

theorem flagByte_toNat (c : Bool) : (flagByte c).toNat = if c then 1 else 0 := by cases c <;> rfl

/-! ## Data accesses (20_memory.md R47) -/

/-- A data access whose range fits takes effect. -/
theorem State.accessing_ok (s t : State) (k : Nat) (h : RangeOk s k) : s.accessing k t = t := by
  unfold State.accessing
  rw [(dataFault_none_iff _ _).2 h]

/-- A data access whose range does not fit raises, and reports the first address outside. -/
theorem State.accessing_fault (s t : State) (k : Nat) (h0 : 0 < k) (h : 0x1000 < s.i.toNat + k) :
    s.accessing k t = s.raiseBounds (BitVec.ofNat 17 (max s.i.toNat 0x1000)) := by
  unfold State.accessing
  rw [dataFault_some _ _ h0 h]

/-- What holds of the effect and of every raise holds of the access. -/
theorem State.accessing_prop (P : State → Prop) (s t : State) (k : Nat) (h1 : RangeOk s k → P t)
    (h2 : ∀ a, P (s.raiseBounds a)) : P (s.accessing k t) := by
  rcases State.accessing_cases s t k with ⟨hn, h⟩ | ⟨a, _, h⟩
  · rw [h]; exact h1 ((dataFault_none_iff _ _).1 hn)
  · rw [h]; exact h2 a

/-- A store whose range fits writes its bytes and advances. -/
theorem State.storeAtI_ok (s : State) (bytes : List Byte) (h : s.i.toNat + bytes.length ≤ 0x1000) :
    s.storeAtI bytes = ({ s with mem := s.mem.writeBytes s.i.toNat bytes } : State).advance :=
  s.accessing_ok _ _ (.inr h)

/-- A bounds error leaves everything the spec gives its kind (60_exceptions.md R165). -/
theorem State.raiseBounds_raised (s : State) : Raised .outOfBoundsMemoryAccess (some (max s.i.toNat 0x1000)) s
    (s.raiseBounds (BitVec.ofNat 17 (max s.i.toNat 0x1000))) := by
  refine ⟨rfl, rfl, rfl, rfl, fun a ha => ?_, fun _ _ => rfl, rfl, rfl, fun _ => rfl, fun _ _ => rfl,
    ⟨rfl, fun _ => rfl⟩, fun _ => rfl, rfl, rfl, rfl, rfl⟩
  cases ha
  exact max_addr_fits s.i

/-- A stack error leaves everything the spec gives its kind (60_exceptions.md R165). -/
theorem State.raiseStack_raised (s : State) (kind : ErrKind) : Raised kind none s (s.raiseStack kind) :=
  ⟨rfl, rfl, rfl, rfl, nofun, fun _ _ => rfl, rfl, rfl, fun _ => rfl, fun _ _ => rfl,
    ⟨rfl, fun _ => rfl⟩, fun _ => rfl, rfl, rfl, rfl, rfl⟩

/-! ## Sprites (44_display.md R142 to R144) -/

/-- The cells after `DRW` drew: the old ones, the sprite's bits inside the grid XORed in. -/
theorem State.spriteDraw_cell (s : State) (x y : RegIdx) (n : Nibble) (row col : Nat) :
    (s.spriteDraw x y n).1.cell row col =
      (s.fb.cell row col ^^ (decide (row < 32) && decide (col < 64) && s.spriteBit x y n row col)) := by
  rw [State.spriteDraw, Plane.cell_draw, inGridPixel_readBytes]

/-- When `DRW` reports a collision. -/
theorem State.spriteDraw_collides (s : State) (x y : RegIdx) (n : Nibble) :
    (s.spriteDraw x y n).2 = true ↔ s.collides x y n := by
  rw [State.spriteDraw, Plane.draw_collides]
  simp only [inGridPixel_readBytes, State.collides, Bool.and_eq_true, decide_eq_true_eq, and_assoc]

/-! ## Fetch (40_cycle.md R81) -/

theorem State.fetch_ok (s : State) (h : s.pc.toNat ≤ 0xFFE) : s.fetch = .ok (s.mem.word s.pc.toNat) := by
  rcases State.fetch_cases s with h1 | h1
  · exact h1.2
  · omega

/-! ## The next state of an instruction -/

/-- The state an instruction leaves. Every meaning answers a next state under the parameter values of this hardware
(`exec_next`), so claims about `exec` are claims about this function. -/
def nextOf (i : Instr) (s : State) : State :=
  match i with
  | .cls => ({ s with fb := Plane.clear } : State).advance
  | .ret =>
    match s.stk with
    | [] => s.raiseStack .stackUnderflow
    | t :: _ => s.pop.jump (t + 2#16)
  | .jp nnn => s.jump (addrOperand nnn)
  | .call nnn =>
    if s.sp < Params.stackDepth then (s.push s.pc).jump (addrOperand nnn) else s.raiseStack .stackOverflow
  | .seVxKk x kk => s.skipIf (s.reg x == kk)
  | .sneVxKk x kk => s.skipIf (s.reg x != kk)
  | .seVxVy x y => s.skipIf (s.reg x == s.reg y)
  | .ldVxKk x kk => (s.setReg x kk).advance
  | .addVxKk x kk => (s.setReg x (s.reg x + kk)).advance
  | .ldVxVy x y => (s.setReg x (s.reg y)).advance
  | .orVxVy x y => (s.setReg x (s.reg x ||| s.reg y)).advance
  | .andVxVy x y => (s.setReg x (s.reg x &&& s.reg y)).advance
  | .xorVxVy x y => (s.setReg x (s.reg x ^^^ s.reg y)).advance
  | .addVxVy x y => (s.setResultFlag x (s.reg x + s.reg y) (carryOut (s.reg x) (s.reg y))).advance
  | .subVxVy x y => (s.setResultFlag x (s.reg x - s.reg y) (greater (s.reg x) (s.reg y))).advance
  | .shrVx x => (s.setResultFlag x (s.reg x >>> 1) (lowBit (s.reg x))).advance
  | .subnVxVy x y => (s.setResultFlag x (s.reg y - s.reg x) (greater (s.reg x) (s.reg y))).advance
  | .shlVx x => (s.setResultFlag x (s.reg x <<< 1) (highBit (s.reg x))).advance
  | .sneVxVy x y => s.skipIf (s.reg x != s.reg y)
  | .ldIAddr nnn => (s.setI (addrOperand nnn)).advance
  | .jpV0Addr nnn => s.jump (s.regWide 0#4 + addrOperand nnn)
  | .rndVxKk x kk =>
    (({ s with randDraws := s.randDraws + 1 } : State).setReg x (Config.rand s.randDraws &&& kk)).advance
  | .drwVxVyN x y n => s.accessing n.toNat
    (({ s with fb := (s.spriteDraw x y n).1 } : State).setReg vfIdx (flagByte (s.spriteDraw x y n).2)).advance
  | .skpVx x => s.skipIf (s.key ((s.reg x).toNat % 16))
  | .sknpVx x => s.skipIf (!s.key ((s.reg x).toNat % 16))
  | .ldVxDt x =>
    (({ s with timerDraws := s.timerDraws + 1 } : State).setReg x (Config.timerRead s.timerDraws)).advance
  | .ldVxK x => ({ s with kx := x, run := .waitingForKey } : State).advance
  | .ldDtVx _ => s.advance
  | .ldStVx _ => s.advance
  | .addIVx x => (s.setI (s.i + s.regWide x)).advance
  | .ldFVx x => (s.setI (glyphAddr (s.reg x))).advance
  | .ldBVx x => s.storeAtI (bcdDigits (s.reg x))
  | .ldMemVx x => s.storeAtI (s.regsUpTo x)
  | .ldVxMem x => s.accessing (x.toNat + 1)
    ({ s with v := loadRegs s.v 0 (s.mem.readBytes s.i.toNat (x.toNat + 1)) } : State).advance

/-- Every instruction answers a next state. -/
theorem exec_next (i : Instr) (s : State) : exec i s = .next (nextOf i s) := by
  cases i
  case ret => simp only [exec, execRet, nextOf]; cases s.stk <;> rfl
  case call => simp only [exec, execCall, nextOf]; split <;> rfl
  case skpVx => simp only [exec, execSkpVx, nextOf, State.keyTest_eq]
  case sknpVx => simp only [exec, execSknpVx, nextOf, State.keyTest_eq]
  all_goals rfl

/-- Everything `ExecOne()` can do (40_cycle.md R81): a fetch fault, the unknown-word no-op, or one instruction. -/
theorem execOne_cases (s : State) :
    (0xFFF ≤ s.pc.toNat ∧ ∃ a : FaultAddr, a.toNat = max s.pc.toNat 0x1000 ∧ execOne s = .next (s.raiseFetch a)) ∨
    (s.pc.toNat ≤ 0xFFE ∧ (∃ e, decodeWord (s.mem.word s.pc.toNat) = .error e) ∧ execOne s = .next s.advance) ∨
    (s.pc.toNat ≤ 0xFFE ∧ ∃ i, decodeWord (s.mem.word s.pc.toNat) = .ok i ∧ execOne s = exec i s) := by
  unfold execOne
  rcases State.fetch_cases s with ⟨hpc, hf⟩ | ⟨hpc, a, hf, ha⟩
  · rw [hf]
    cases hd : decodeWord (s.mem.word s.pc.toNat) with
    | error e => exact .inr (.inl ⟨hpc, ⟨e, rfl⟩, by simp only [hd]; rfl⟩)
    | ok i => exact .inr (.inr ⟨hpc, i, rfl, by simp only [hd]⟩)
  · rw [hf]
    exact .inl ⟨hpc, a, ha, rfl⟩

/-- Everything a cycle can do (40_cycle.md R80). -/
theorem cycle_cases (s : State) :
    ((s.run = .haltedByError ∨ s.run = .paused) ∧ cycle s = .next s) ∨
    (s.run = .waitingForKey ∧ cycle s = .next (keyWaitPoll s)) ∨
    (s.run = .running ∧ cycle s = execOne s) := by
  unfold cycle
  cases s.run <;> simp

/-! ## Host commands -/

/-- Everything `step()` can do (60_exceptions.md R178). -/
theorem stepCommand_cases (s : State) :
    (s.run = .paused ∧ stepCommand s = execOne s) ∨ (s.run ≠ .paused ∧ stepCommand s = .next s) := by
  unfold stepCommand
  cases s.run <;> simp

/-- Only a running or paused core is in the state in which `loadRom` is defined (70_reset_and_hazards.md R195). -/
theorem State.beforeLaunch_run (s : State) (h : s.beforeLaunch = true) : s.run = .running ∨ s.run = .paused := by
  unfold State.beforeLaunch at h
  simp only [Bool.and_eq_true, Bool.or_eq_true, beq_iff_eq] at h
  exact h.2

/-- A fetched word that is no instruction is the event of the cycle (60_exceptions.md R163). -/
theorem unknownOpcodeEvent_error (s : State) (e : DecodeError) (hp : s.pc.toNat ≤ 0xFFE)
    (hd : decodeWord (s.mem.word s.pc.toNat) = .error e) : unknownOpcodeEvent s = some (s.mem.word s.pc.toNat) := by
  unfold unknownOpcodeEvent
  rw [s.fetch_ok hp]
  simp only [hd]

/-- A fetched word that is an instruction emits no event. -/
theorem unknownOpcodeEvent_ok (s : State) (i : Instr) (hp : s.pc.toNat ≤ 0xFFE)
    (hd : decodeWord (s.mem.word s.pc.toNat) = .ok i) : unknownOpcodeEvent s = none := by
  unfold unknownOpcodeEvent
  rw [s.fetch_ok hp]
  simp only [hd]

/-- A fetch fault emits no event. -/
theorem unknownOpcodeEvent_fault (s : State) (hp : 0xFFF ≤ s.pc.toNat) : unknownOpcodeEvent s = none := by
  unfold unknownOpcodeEvent
  rcases s.fetch_cases with ⟨h, _⟩ | ⟨_, a, hf, _⟩
  · omega
  · rw [hf]

end Sys2Proof.Machine
end

