-- ==== Sys2Proof/Tests/Slice0.lean ====
section
/-! SUPPORT. Tests of one step each, and the witnesses of the statements' hypotheses. Every expected value is the spec's:
a test names the row of spec/95_test_vectors.md, or the rule, it is taken from. -/

namespace Sys2Proof.Tests
open Sys2Proof.Machine

/-! ## Helpers -/

/-- A state with some registers set. -/
def regs (l : List (RegIdx × Byte)) (s : State) : State := l.foldl (fun t p => t.setReg p.1 p.2) s

/-- A state with bytes put into memory. -/
def put (a : Nat) (bytes : List Byte) (s : State) : State := { s with mem := s.mem.writeBytes a bytes }

/-- The outcome is a next state, and it passes. -/
def gives (o : Host.Outcome State Fault Refusal) (p : State → Bool) : Bool :=
  match o with
  | .next t => p t
  | .fault _ => false
  | .refused _ => false

/-- One step on a table word at `PC` answers a next state that passes. -/
def run1 (w : Nat) (s : State) (p : State → Bool) : Bool := gives (step (s.withFetchWord 16 w)) p

/-- The host action answers a state that passes, and this reply. -/
def acts (a : HostAction) (s : State) (r : Reply) (p : State → Bool) : Bool :=
  match perform a s with
  | .next (t, q) => p t && q == r
  | .fault _ => false
  | .refused _ => false

/-- The core is halted by an error of this kind at this `PC`. -/
def halted (k : ErrKind) (pc : Word) (t : State) : Bool :=
  t.run == .haltedByError && t.err.kind == k && t.err.pc == pc && t.pc == pc

/-- A state with `PC` at an address. -/
def atPc (pc : Word) : State := { State.reset with pc := pc }

/-- A state with `I` at an address. -/
def atI (i : Word) : State := { State.reset with i := i }

/-- A state with these keys down. -/
def keysDown (l : List Nat) (s : State) : State := l.foldl (fun t k => t.setKeyPressed k) s

/-- A state whose stack holds `n` entries 0x300. -/
def deep (n : Nat) (s : State) : State := { s with stk := List.replicate n 0x300#16 }

/-! ## Well-formedness: an ill-formed term for each check. No instruction is ill formed (30_encoding.md R62). -/

theorem test_nibble_refused : fitsNibble 16 = false ∧ fitsNibble 15 = true := by decide
theorem test_byte_refused : fitsByte 256 = false ∧ fitsByte 255 = true := by decide
theorem test_addr_refused : fitsAddr 4096 = false ∧ fitsAddr 4095 = true := by decide
/-- 95_test_vectors.md 2.7 rows 16 and 17. -/
theorem test_rom_refused : romFits (List.replicate 3585 0#8) = false ∧ romFits (List.replicate 3584 0#8) = true := by
  simp only [romFits, List.length_replicate]
  decide
/-- 95_test_vectors.md 2.7 row 15. -/
theorem test_keycode_refused : keyCodeValid 16 = false ∧ keyCodeValid 15 = true := by decide

/-! ## Decoding (95_test_vectors.md 2.1): the word of every constructor -/

theorem test_decode_control :
    decodeTableWord 16 0x00EE = some .ret ∧ decodeTableWord 16 0x1FFF = some (.jp 0xFFF) ∧
    decodeTableWord 16 0x2ABC = some (.call 0xABC) ∧ decodeTableWord 16 0x3A7F = some (.seVxKk 10 0x7F) ∧
    decodeTableWord 16 0x4A7F = some (.sneVxKk 10 0x7F) ∧ decodeTableWord 16 0x5AB0 = some (.seVxVy 10 11) ∧
    decodeTableWord 16 0x9AB0 = some (.sneVxVy 10 11) ∧ decodeTableWord 16 0xB123 = some (.jpV0Addr 0x123) := by decide
theorem test_decode_alu :
    decodeTableWord 16 0x6A2F = some (.ldVxKk 10 0x2F) ∧ decodeTableWord 16 0x7A01 = some (.addVxKk 10 0x01) ∧
    decodeTableWord 16 0x8AB0 = some (.ldVxVy 10 11) ∧ decodeTableWord 16 0x8AB1 = some (.orVxVy 10 11) ∧
    decodeTableWord 16 0x8AB2 = some (.andVxVy 10 11) ∧ decodeTableWord 16 0x8AB3 = some (.xorVxVy 10 11) ∧
    decodeTableWord 16 0x8AB4 = some (.addVxVy 10 11) ∧ decodeTableWord 16 0x8AB5 = some (.subVxVy 10 11) ∧
    decodeTableWord 16 0x8AB6 = some (.shrVx 10) ∧ decodeTableWord 16 0x8AB7 = some (.subnVxVy 10 11) ∧
    decodeTableWord 16 0x8ABE = some (.shlVx 10) ∧ decodeTableWord 16 0xC10F = some (.rndVxKk 1 0x0F) := by decide
theorem test_decode_index :
    decodeTableWord 16 0xA123 = some (.ldIAddr 0x123) ∧ decodeTableWord 16 0xF11E = some (.addIVx 1) ∧
    decodeTableWord 16 0xF129 = some (.ldFVx 1) ∧ decodeTableWord 16 0xF133 = some (.ldBVx 1) ∧
    decodeTableWord 16 0xF155 = some (.ldMemVx 1) ∧ decodeTableWord 16 0xF165 = some (.ldVxMem 1) := by decide
theorem test_decode_display_and_keys :
    decodeTableWord 16 0x00E0 = some .cls ∧ decodeTableWord 16 0xD125 = some (.drwVxVyN 1 2 5) ∧
    decodeTableWord 16 0xE19E = some (.skpVx 1) ∧ decodeTableWord 16 0xE1A1 = some (.sknpVx 1) ∧
    decodeTableWord 16 0xF107 = some (.ldVxDt 1) ∧ decodeTableWord 16 0xF10A = some (.ldVxK 1) ∧
    decodeTableWord 16 0xF115 = some (.ldDtVx 1) ∧ decodeTableWord 16 0xF118 = some (.ldStVx 1) := by decide
theorem test_decode_ignored_bits :
    decodeTableWord 16 0x0AE0 = some .cls ∧ decodeTableWord 16 0x0FEE = some .ret ∧
    decodeTableWord 16 0x5ABF = some (.seVxVy 10 11) ∧ decodeTableWord 16 0x9AB1 = some (.sneVxVy 10 11) := by decide
theorem test_decode_unknown :
    [0x0000, 0x00E1, 0x00ED, 0x00EF, 0x00FE, 0x0123, 0x8AB8, 0x8AB9, 0x8ABA, 0x8ABB, 0x8ABC, 0x8ABD, 0x8ABF,
      0xE19F, 0xE1A0, 0xE100, 0xE1FF, 0xF100, 0xF175, 0xF185, 0xF1FF, 0xFFFF].map (decodeTableWord 16) =
      List.replicate 22 none := by decide
/-- The first byte of memory is the high one (20_memory.md R42); one byte is no instruction (30_encoding.md R60). -/
theorem test_decode_bytes :
    decodeBytes [0x6A, 0x2F, 0x12] = .ok (.ldVxKk 10 0x2F, [0x12]) ∧ decodeBytes [0x6A] = .error .truncated := by decide
/-- 30_encoding.md R75. -/
theorem test_assembly : asmText (.drwVxVyN 1 12 5) = "DRW V1,VC,0x5" ∧ asmText (.ldVxMem 2) = "LD V2,[I]" := by decide

/-! ## Control flow (95_test_vectors.md 2.2) -/

/-- Row 1. -/
theorem test_jp : run1 0x1234 .reset (fun t => t.pc == 0x234) = true := by decide
/-- Row 2. -/
theorem test_jp_self : run1 0x1200 .reset (fun t => t == State.reset.withFetchWord 16 0x1200) = true := by decide
/-- Row 6. -/
theorem test_call : run1 0x2400 (atPc 0x300)
    (fun t => t.stkEntry 0 == some 0x300 && t.sp == 1 && t.pc == 0x400) = true := by decide
/-- Row 8. -/
theorem test_call_overflow : run1 0x2400 (deep 16 (atPc 0x300))
    (fun t => halted .stackOverflow 0x300 t && t.err.op == 0x2400 && t.sp == 16) = true := by decide
/-- Row 9. -/
theorem test_ret : run1 0x00EE (deep 1 (atPc 0x400)) (fun t => t.sp == 0 && t.pc == 0x302) = true := by decide
/-- Row 10. -/
theorem test_ret_underflow : run1 0x00EE (atPc 0x400)
    (fun t => halted .stackUnderflow 0x400 t && t.err.op == 0x00EE) = true := by decide
/-- Rows 12 and 13. -/
theorem test_se_kk : run1 0x3100 .reset (fun t => t.pc == 0x204) = true ∧
    run1 0x3100 (regs [(1, 1)] .reset) (fun t => t.pc == 0x202) = true := by decide
/-- Rows 14 and 15. -/
theorem test_sne_kk : run1 0x4100 (regs [(1, 1)] .reset) (fun t => t.pc == 0x204) = true ∧
    run1 0x4100 .reset (fun t => t.pc == 0x202) = true := by decide
/-- Rows 17 and 18. -/
theorem test_se_vy : run1 0x512F (regs [(1, 7), (2, 7)] .reset) (fun t => t.pc == 0x204) = true ∧
    run1 0x5120 (regs [(1, 7), (2, 8)] .reset) (fun t => t.pc == 0x202) = true := by decide
/-- Rows 20 and 21. -/
theorem test_sne_vy : run1 0x9120 (regs [(1, 7), (2, 8)] .reset) (fun t => t.pc == 0x204) = true ∧
    run1 0x9120 (regs [(1, 7), (2, 7)] .reset) (fun t => t.pc == 0x202) = true := by decide
/-- Row 24. -/
theorem test_jp_v0_no_wrap : run1 0xBFFF (regs [(0, 0xFF)] .reset) (fun t => t.pc == 0x10FE) = true := by decide

/-! ## Load, arithmetic, logic, shift, random (95_test_vectors.md 2.3) -/

/-- Row 3. -/
theorem test_ld_kk_vf : run1 0x6FAB .reset (fun t => t.reg 15 == 0xAB && t.pc == 0x202) = true := by decide
/-- Row 6. -/
theorem test_add_kk_no_flag : run1 0x7180 (regs [(1, 0x80), (15, 1)] .reset)
    (fun t => t.reg 1 == 0x00 && t.reg 15 == 1) = true := by decide
/-- Row 7. -/
theorem test_ld_vy : run1 0x8230 (regs [(3, 0x77)] .reset) (fun t => t.reg 2 == 0x77) = true := by decide
/-- Row 9. -/
theorem test_or : run1 0x8121 (regs [(1, 0xF0), (2, 0x0F), (15, 1)] .reset)
    (fun t => t.reg 1 == 0xFF && t.reg 15 == 1) = true := by decide
/-- Row 10. -/
theorem test_and : run1 0x8122 (regs [(1, 0xF0), (2, 0x3C), (15, 1)] .reset)
    (fun t => t.reg 1 == 0x30 && t.reg 15 == 1) = true := by decide
/-- Row 11. -/
theorem test_xor : run1 0x8123 (regs [(1, 0xF0), (2, 0x3C), (15, 1)] .reset)
    (fun t => t.reg 1 == 0xCC && t.reg 15 == 1) = true := by decide
/-- Table of flags, N = 4: the largest sum, and a sum of exactly 0xFF. -/
theorem test_add_vy : run1 0x8014 (regs [(0, 0xFF), (1, 0xFF)] .reset) (fun t => t.reg 0 == 0xFE && t.reg 15 == 1) = true ∧
    run1 0x8014 (regs [(0, 0xFF), (15, 1)] .reset) (fun t => t.reg 0 == 0xFF && t.reg 15 == 0) = true := by decide
/-- Register 15 as an operand, rows 1 and 9. -/
theorem test_add_vf : run1 0x8F14 (regs [(15, 0xFF), (1, 1)] .reset) (fun t => t.reg 15 == 0x01) = true ∧
    run1 0x81F4 (regs [(1, 0xFF), (15, 1)] .reset) (fun t => t.reg 1 == 0x00 && t.reg 15 == 1) = true := by decide
/-- Table of flags, N = 5. -/
theorem test_sub : run1 0x8015 (regs [(0, 5), (1, 3)] .reset) (fun t => t.reg 0 == 2 && t.reg 15 == 1) = true ∧
    run1 0x8015 (regs [(0, 3), (1, 5)] .reset) (fun t => t.reg 0 == 0xFE && t.reg 15 == 0) = true := by decide
/-- Table of flags, N = 5: equal operands. -/
theorem test_sub_equal : run1 0x8015 (regs [(0, 5), (1, 5), (15, 1)] .reset)
    (fun t => t.reg 0 == 0 && t.reg 15 == 0) = true := by decide
/-- Table of flags, N = 6: a logical shift. -/
theorem test_shr : run1 0x8016 (regs [(0, 0xFF)] .reset) (fun t => t.reg 0 == 0x7F && t.reg 15 == 1) = true := by decide
/-- Table of flags, N = 7. -/
theorem test_subn : run1 0x8017 (regs [(0, 5), (1, 3)] .reset) (fun t => t.reg 0 == 0xFE && t.reg 15 == 1) = true ∧
    run1 0x8017 (regs [(0, 3), (1, 5)] .reset) (fun t => t.reg 0 == 2 && t.reg 15 == 0) = true := by decide
/-- Table of flags, N = E. -/
theorem test_shl : run1 0x801E (regs [(0, 0x81)] .reset) (fun t => t.reg 0 == 0x02 && t.reg 15 == 1) = true ∧
    run1 0x801E (regs [(0, 0x7F)] .reset) (fun t => t.reg 0 == 0xFE && t.reg 15 == 0) = true := by decide
/-- Row 15: any draw, masked by 0. -/
theorem test_rnd_mask_zero : ∃ t, exec (.rndVxKk 1 0) State.reset = .next t ∧ t.reg 1 = 0 :=
  ⟨_, rfl, BitVec.and_zero⟩

/-! ## Index register and memory (95_test_vectors.md 2.4) -/

/-- Row 2. -/
theorem test_ld_i : run1 0xAFFF .reset (fun t => t.i == 0x0FFF && t.pc == 0x202) = true := by decide
/-- Rows 3 and 4. -/
theorem test_add_i : run1 0xF11E (regs [(1, 5)] (atI 0xFFE)) (fun t => t.i == 0x1003 && t.reg 15 == 0) = true ∧
    run1 0xF11E (regs [(1, 1)] (atI 0xFFFF)) (fun t => t.i == 0) = true := by decide
/-- Rows 6 and 9. -/
theorem test_ld_f : run1 0xF229 (regs [(2, 0x0A)] .reset) (fun t => t.i == 0x0032) = true ∧
    run1 0xF229 (regs [(2, 0x10)] .reset) (fun t => t.i == 0x0050) = true := by decide
/-- Row 17. -/
theorem test_ld_b : run1 0xF033 (regs [(0, 0x7B)] (atI 0xFFD))
    (fun t => t.mem.readBytes 0xFFD 3 == [1, 2, 3] && t.pc == 0x202) = true := by decide
/-- Row 18. -/
theorem test_ld_b_fault : run1 0xF033 (regs [(0, 0x7B)] (atI 0xFFE))
    (fun t => halted .outOfBoundsMemoryAccess 0x200 t && t.err.op == 0xF033 && t.err.addr == 0x1000 &&
      t.mem.readBytes 0xFFE 2 == [0, 0]) = true := by decide
/-- Row 20. -/
theorem test_ld_mem : run1 0xF255 (regs [(0, 1), (1, 2), (2, 3)] (atI 0x300))
    (fun t => t.mem.readBytes 0x300 4 == [1, 2, 3, 0] && t.i == 0x300) = true := by decide
/-- Row 23. -/
theorem test_ld_mem_fault : run1 0xFF55 (regs [(0, 0x11)] (atI 0xFF1))
    (fun t => halted .outOfBoundsMemoryAccess 0x200 t && t.err.addr == 0x1000 && t.mem.read 0xFF1 == 0) = true := by decide
/-- Row 25. -/
theorem test_ld_vx_mem : run1 0xF265 (put 0x300 [0, 1, 5] (regs [(3, 0x99)] (atI 0x300)))
    (fun t => t.v.toList.take 4 == [0x00, 0x01, 0x05, 0x99] && t.i == 0x300) = true := by decide
/-- Row 27. -/
theorem test_ld_vx_mem_font : run1 0xF465 (atI 0)
    (fun t => t.v.toList.take 5 == [0xF0, 0x90, 0x90, 0x90, 0xF0]) = true := by decide

/-! ## Display (95_test_vectors.md 2.5) -/

/-- Row 1. -/
theorem test_cls : run1 0x00E0 (regs [(15, 1)] { State.reset with fb := Vector.replicate 32 5 })
    (fun t => t.fb == State.reset.fb && t.reg 15 == 1) = true := by decide
/-- Row 7: clipped on the right, not wrapped. -/
theorem test_drw_clips : run1 0xD011 (put 0x300 [0xFF] (regs [(0, 62), (1, 31)] (atI 0x300)))
    (fun t => t.fb.cell 31 62 && t.fb.cell 31 63 && !t.fb.cell 31 61 && !t.fb.cell 31 0 && t.reg 15 == 0) = true := by decide
/-- Row 14. -/
theorem test_drw_collides :
    run1 0xD011 (put 0x300 [0xC0] (regs [(0, 5), (1, 5)] { atI 0x300 with fb := State.reset.fb.toggle 5 5 }))
      (fun t => !t.fb.cell 5 5 && t.fb.cell 5 6 && t.reg 15 == 1) = true := by decide

/-! ## Keys and timer stubs (95_test_vectors.md 2.6) -/

/-- Rows 1 and 5. -/
theorem test_skp : run1 0xE09E (regs [(0, 3)] (keysDown [3] .reset)) (fun t => t.pc == 0x204) = true ∧
    run1 0xE09E (regs [(0, 0x13)] (keysDown [3] .reset)) (fun t => t.pc == 0x204) = true := by decide
/-- Rows 3 and 4. -/
theorem test_sknp : run1 0xE0A1 (regs [(0, 3)] (keysDown [3] .reset)) (fun t => t.pc == 0x202) = true ∧
    run1 0xE0A1 (regs [(0, 3)] (keysDown [4] .reset)) (fun t => t.pc == 0x204) = true := by decide
/-- Row 7: the load does not complete in the issuing cycle. -/
theorem test_ld_k : run1 0xF30A (keysDown [5] .reset)
    (fun t => t.kx == 3 && t.run == .waitingForKey && t.pc == 0x202 && t.reg 3 == 0) = true := by decide
/-- Row 10, and 2.6 row 8: a poll takes the lowest key, or changes nothing. -/
theorem test_key_poll :
    gives (step (keysDown [9, 0] (regs [(3, 7)] { State.reset with run := .waitingForKey, kx := 3 })))
      (fun t => t.reg 3 == 0x00 && t.run == .running && t.pc == 0x200) = true ∧
    gives (step { State.reset with run := .waitingForKey, kx := 3 })
      (fun t => t == { State.reset with run := .waitingForKey, kx := 3 }) = true := by decide
/-- Row 13: one draw, any byte. -/
theorem test_ld_dt : ∃ t, exec (.ldVxDt 3) State.reset = .next t ∧ t.reg 3 = Config.timerRead 0 ∧ t.pc = 0x202 :=
  ⟨_, rfl, rfl, rfl⟩
/-- Row 14. -/
theorem test_st_dt : run1 0xF315 (regs [(3, 0x3C)] .reset)
    (fun t => t == { (regs [(3, 0x3C)] .reset).withFetchWord 16 0xF315 with pc := 0x202 }) = true := by decide
/-- Row 15. -/
theorem test_st_st : run1 0xF318 (regs [(3, 0x3C)] .reset)
    (fun t => t == { (regs [(3, 0x3C)] .reset).withFetchWord 16 0xF318 with pc := 0x202 }) = true := by decide

/-! ## Cycle, errors, run control, reset (95_test_vectors.md 2.7) -/

/-- Row 1. -/
theorem test_unknown_event : acts .cycle (atPc 0xFFE) (.unknownOpcode 0) (fun t => t == atPc 0x1000) = true := by decide
/-- Rows 9 and 8. -/
theorem test_single_step :
    acts .step ({ State.reset.withFetchWord 16 0x6005 with run := .paused }) .done
      (fun t => t.reg 0 == 5 && t.pc == 0x202 && t.run == .paused) = true ∧
    acts .cycle ({ State.reset.withFetchWord 16 0x6005 with run := .paused }) .done
      (fun t => t.reg 0 == 0 && t.pc == 0x200) = true := by decide
/-- Rows 1 and 3, stepped while paused (60_exceptions.md R178 runs `ExecOne`). -/
theorem test_single_step_edges :
    acts .step (atPc 0xFFE).pause (.unknownOpcode 0) (fun t => t == (atPc 0x1000).pause) = true ∧
    acts .step (atPc 0xFFF).pause .done
      (fun t => halted .outOfBoundsMemoryAccess 0xFFF t && t.err.addr == 0x1000) = true := by decide
/-- E8: reset keeps the image. -/
theorem test_reset_keeps_rom :
    acts .reset (keysDown [4] (regs [(10, 0x2F)] { (State.reset.loadImage [0x6A, 0x2F, 0x12, 0x02]) with pc := 0x202 })) .done
      (fun t => t == State.reset.loadImage [0x6A, 0x2F, 0x12, 0x02]) = true := by decide

/-! ## Witnesses: states and operands that meet the hypotheses of the statements, one for each clause -/

/-- Both clauses, at the least live count and at 0. -/
theorem witness_RetReturnsPastTheCall : 0 < (deep 1 .reset).sp ∧ State.reset.sp = 0 := by decide
/-- Both clauses, at the last free entry and at the full stack. -/
theorem witness_CallPushesItsOwnAddress :
    (deep 15 .reset).sp < Params.stackDepth ∧ (deep 16 .reset).sp = Params.stackDepth := by decide
/-- Both sides of the comparison. -/
theorem witness_ImmediateSkips : State.reset.reg 1 = 0 ∧ State.reset.reg 1 ≠ 1 := by decide
/-- Both sides of the comparison. -/
theorem witness_RegisterSkips : State.reset.reg 1 = State.reset.reg 2 ∧
    (regs [(1, 7)] .reset).reg 1 ≠ (regs [(1, 7)] .reset).reg 2 := by decide
/-- The five flag instructions: the last destination whose result is stated, and both sides of each flag. -/
theorem witness_flag_instructions : (14#4 : RegIdx) ≠ 15#4 ∧
    0xFF < ((regs [(1, 0xFF), (2, 1)] .reset).reg 1).toNat + ((regs [(1, 0xFF), (2, 1)] .reset).reg 2).toNat ∧
    ¬ 0xFF < (State.reset.reg 1).toNat + (State.reset.reg 2).toNat ∧
    (State.reset.reg 2).toNat < ((regs [(1, 1)] .reset).reg 1).toNat := by decide
/-- A mask bit that is clear. -/
theorem witness_RndMasksOneDraw : (0x0F#8 : Byte).getLsbD 4 = false := by decide
/-- Both clauses, at the last range that fits and the first that does not. -/
theorem witness_LdBStoresThreeDigits : (atI 0xFFD).i.toNat + 2 ≤ 0xFFF ∧ 0xFFF < (atI 0xFFE).i.toNat + 2 := by decide
/-- The whole register file ending at 0xFFF. -/
theorem witness_LdMemStoresTheRegisters : (atI 0xFF0).i.toNat + (15#4 : RegIdx).toNat ≤ 0xFFF := by decide
/-- One register at the last address, and both sides of the register range. -/
theorem witness_LdVxMemLoadsTheRegisters : (atI 0xFFF).i.toNat + (0#4 : RegIdx).toNat ≤ 0xFFF ∧
    (0#4 : RegIdx).toNat ≤ (0#4 : RegIdx).toNat ∧ ¬ (1#4 : RegIdx).toNat ≤ (0#4 : RegIdx).toNat := by decide
/-- Four clauses, each at the first range that does not fit. -/
theorem witness_OutOfRangeDataHaltsWithoutEffect :
    0xFFF < (atI 0xFFE).i.toNat + 2 ∧ 0xFFF < (atI 0xFF1).i.toNat + (15#4 : RegIdx).toNat ∧
    0xFFF < (atI 0x1000).i.toNat + (0#4 : RegIdx).toNat ∧
    (0 < (2#4 : Nibble).toNat ∧ 0xFFF < (atI 0xFFF).i.toNat + (2#4 : Nibble).toNat - 1) := by decide
/-- Both clauses. -/
theorem witness_StackErrorsAreRecorded :
    State.reset.sp = 0 ∧ (deep 16 .reset).sp = Params.stackDepth := by decide
/-- A running core at LD [I],V1 with I at the next instruction, whose registers spell LD V3,0x2A. -/
theorem witness_StoreIsSeenByTheNextFetch :
    (regs [(0, 0x63), (1, 0x2A)] (atI 0x202)).run = .running ∧ 1 ≤ (1#4 : RegIdx).toNat ∧
    (atI 0x202).i = (atI 0x202).pc + 2#16 ∧ (atI 0x202).i.toNat + (1#4 : RegIdx).toNat ≤ 0xFFF ∧
    decodeWord (wordOfBytes ((regs [(0, 0x63), (1, 0x2A)] (atI 0x202)).reg 0)
      ((regs [(0, 0x63), (1, 0x2A)] (atI 0x202)).reg 1)) = .ok (.ldVxKk 3 0x2A) := by decide
/-- A sprite of no bytes at any address, and of one byte at the last. -/
theorem witness_DrwXorsAndReportsCollision_range : RangeOk (atI 0xFFFF) 0 ∧ RangeOk (atI 0xFFF) 1 :=
  ⟨.inl rfl, .inr (by decide)⟩
/-- A sprite that collides: column 0 is set in every row, and glyph 0 begins with 0xF0. -/
theorem witness_DrwXorsAndReportsCollision_hit :
    ({ State.reset with fb := Vector.replicate 32 1 } : State).collides 0 1 1 :=
  ⟨0, 0, by decide, by decide, by decide, by decide⟩
/-- A sprite that does not: the plane is empty. -/
theorem witness_DrwXorsAndReportsCollision_miss : ¬ State.reset.collides 0 1 1 := by
  rintro ⟨row, col, hr, -, -, h⟩
  simp [State.reset, Plane.cell, hr] at h
/-- Registers other than VF, a sprite inside memory, an empty plane. -/
theorem witness_DrawingTwiceRestoresThePlane : (0#4 : RegIdx) ≠ 15#4 ∧ (14#4 : RegIdx) ≠ 15#4 ∧ RangeOk State.reset 1 ∧
    ∀ row col, State.reset.fb.cell row col = false := by
  refine ⟨by decide, by decide, .inr (by decide), fun row col => ?_⟩
  by_cases h : row < 32 <;> simp [State.reset, Plane.cell, h]
/-- Both sides: a key index above 15 whose key is down, and a key that is up. -/
theorem witness_KeySkipsTestTheLowNibble :
    (keysDown [3] .reset).key (((regs [(0, 0x13)] .reset).reg 0).toNat % 16) = true ∧ State.reset.key 0 = false := by decide
/-- A waiting core with no key down. -/
theorem witness_KeyWaitEndsWithTheLowestKey_none :
    ({ State.reset with run := .waitingForKey } : State).run = .waitingForKey ∧
    ∀ k, ({ State.reset with run := .waitingForKey } : State).key k = false := by
  refine ⟨rfl, fun k => ?_⟩
  by_cases h : k < 16 <;> simp [State.reset, State.key, h]
/-- A waiting core whose lowest key down is the last one. -/
theorem witness_KeyWaitEndsWithTheLowestKey_some :
    (keysDown [15] { State.reset with run := .waitingForKey }).run = .waitingForKey ∧
    (keysDown [15] { State.reset with run := .waitingForKey }).key 15 = true ∧
    ∀ j, j < 15 → (keysDown [15] { State.reset with run := .waitingForKey }).key j = false := by decide
/-- A running core at the last address a fetch can use. -/
theorem witness_StepRunsTheDecodedInstruction :
    ((atPc 0xFFE).withFetchWord 16 0x6005).run = .running ∧ ((atPc 0xFFE).withFetchWord 16 0x6005).pc.toNat ≤ 0xFFE ∧
    decodeWord (((atPc 0xFFE).withFetchWord 16 0x6005).mem.word ((atPc 0xFFE).withFetchWord 16 0x6005).pc.toNat) =
      .ok (.ldVxKk 0 5) ∧ (Instr.ldVxKk 0 5).wellFormed = true := by decide
/-- A running core at an unknown word. -/
theorem witness_UnknownWordsOnlyAdvance : (atPc 0xFFE).run = .running ∧ (atPc 0xFFE).pc.toNat ≤ 0xFFE ∧
    decodeWord ((atPc 0xFFE).mem.word (atPc 0xFFE).pc.toNat) = .error (.unknownOpcode 0) := by decide
/-- A running core at the last address of memory. -/
theorem witness_FetchPastMemoryHalts : (atPc 0xFFF).run = .running ∧ 0xFFE < (atPc 0xFFF).pc.toNat := by decide
/-- A paused and a halted core. -/
theorem witness_IdleCyclesChangeNothing : (State.reset.pause.run = .paused ∨ State.reset.pause.run = .haltedByError) ∧
    ((State.reset.raiseFetch 0x1000).run = .paused ∨ (State.reset.raiseFetch 0x1000).run = .haltedByError) :=
  ⟨.inl rfl, .inr rfl⟩
/-- A halted core, an action other than reset that answers, and key codes and image lengths on both sides of their limits. -/
theorem witness_HaltIsTerminalUntilReset : (State.reset.raiseFetch 0x1000).run = .haltedByError ∧
    (HostAction.setKeyPressed 15 ≠ .reset ∧
      ∃ t, perform (.setKeyPressed 15) (State.reset.raiseFetch 0x1000) = .next (t, .done)) ∧
    (15 = 15 ∧ 15 < 16) ∧ ¬ (16 = 16 ∧ 16 < 16) ∧
    3584 < (List.replicate 3585 0#8).length ∧ ¬ 3584 < (List.replicate 3584 0#8).length := by
  refine ⟨rfl, ⟨nofun, _, rfl⟩, by decide, by decide, ?_, ?_⟩ <;> simp only [List.length_replicate] <;> decide
/-- A running core at a jump to itself. -/
theorem witness_JumpToSelfIsAtRest : AtRest (State.reset.withFetchWord 16 0x1200) :=
  ⟨rfl, by decide, by decide⟩
/-- An instruction with every operand at its largest value. -/
theorem witness_DecodeOfEncodeIsTheInstruction : (Instr.drwVxVyN 15 15 15).wellFormed = true := by decide
/-- Two words that differ in an ignored bit only. -/
theorem witness_IgnoredBitsNeverMatter : decodeWord 0x5AB7 = .ok (.seVxVy 10 11) ∧
    (0x5AB7#16 : Word) &&& (Instr.seVxVy 10 11).usedBits = 0x5AB0#16 &&& (Instr.seVxVy 10 11).usedBits := by decide
/-- Reset satisfies the invariant, and a step from it answers a next state. -/
theorem witness_EveryStepKeepsTheInvariant : Inv State.reset ∧ ∃ t, step State.reset = .next t :=
  ⟨⟨by decide, by decide, by decide, by decide, by decide, nofun, nofun⟩, _, rfl⟩
/-- A host action on a state that satisfies the invariant. -/
theorem witness_HostActionsKeepTheInvariant : Inv State.reset ∧
    ∃ t, perform (.loadRom [0x12, 0x00]) State.reset = .next (t, .done) :=
  ⟨witness_EveryStepKeepsTheInvariant.1, _, rfl⟩
/-- An instruction that none of the clauses excludes. -/
theorem witness_OnlyNamedInstructionsWriteEachStore : ∃ t, exec (.jp 0) State.reset = .next t ∧
    (∀ x, Instr.jp 0 ≠ .ldBVx x) ∧ (∀ x, Instr.jp 0 ≠ .ldMemVx x) ∧ Instr.jp 0 ≠ .cls ∧
    (∀ x y n, Instr.jp 0 ≠ .drwVxVyN x y n) ∧ (∀ nnn, Instr.jp 0 ≠ .ldIAddr nnn) ∧ (∀ x, Instr.jp 0 ≠ .addIVx x) ∧
    (∀ x, Instr.jp 0 ≠ .ldFVx x) ∧ (∀ nnn, Instr.jp 0 ≠ .call nnn) ∧ Instr.jp 0 ≠ .ret :=
  ⟨_, rfl, nofun, nofun, nofun, nofun, nofun, nofun, nofun, nofun, nofun⟩
/-- A register that is not named, and a flag instruction. -/
theorem witness_RegistersChangeOnlyWhenNamed : ∃ t, exec (.addVxVy 0 1) State.reset = .next t ∧
    ¬ (Instr.addVxVy 0 1).namesDest 14#4 ∧ (14#4 ≠ 15#4 ∨ ¬ (Instr.addVxVy 0 1).definesFlag) ∧
    (Instr.addVxVy 0 1).definesFlag ∧ (∀ x y n, Instr.addVxVy 0 1 = .drwVxVyN x y n → RangeOk State.reset n.toNat) :=
  ⟨_, rfl, by simp [Instr.namesDest], .inl (by decide), .inl ⟨0, 1, rfl⟩, nofun⟩
/-- Steps that answer a next state in each run state. -/
theorem witness_StepsNeverWriteKeysOrImage : (∃ t, step State.reset = .next t) ∧
    (∃ t, step (keysDown [2] { State.reset with run := .waitingForKey }) = .next t) := ⟨⟨_, rfl⟩, ⟨_, rfl⟩⟩
/-- An instruction other than SKP and SKNP. -/
theorem witness_OnlyKeySkipsReadTheKeys : (∀ x, Instr.ldVxK 3 ≠ .skpVx x) ∧ (∀ x, Instr.ldVxK 3 ≠ .sknpVx x) :=
  ⟨nofun, nofun⟩
/-- A stack with one free entry, and a state with the stack that CALL left. -/
theorem witness_CallThenRetComesBack : (deep 15 .reset).sp < Params.stackDepth ∧
    ∃ t, exec (.call 0x400) (deep 15 .reset) = .next t ∧ SameStack t { State.reset with stk := t.stk } :=
  ⟨by decide, _, rfl, rfl, fun _ => rfl⟩
/-- The last FONT byte and the first address after it. -/
theorem witness_ResetStateIsConstruction : 79 < 80 ∧ Params.font[79]? = some 0x80 ∧ 80 ≤ 80 := by decide
/-- An image of one byte: an address below it, one above it, and its own. -/
theorem witness_ResetRebuildsEverything : (0x1FF < 0x200 ∨ 0x200 + [0x12#8].length ≤ 0x1FF) ∧
    (0x201 < 0x200 ∨ 0x200 + [0x12#8].length ≤ 0x201) ∧ 0 < (State.reset.loadImage [0x12#8]).rom.length := by decide
/-- Both clauses, at the longest image that fits and the shortest that does not. -/
theorem witness_LoadRomCopiesAndRetains :
    (List.replicate 3584 0#8).length ≤ 3584 ∧ 3584 < (List.replicate 3585 0#8).length := by
  simp only [List.length_replicate]
  decide
/-- A core in each of two run states, which meet the four clauses. -/
theorem witness_PauseAndResumeToggleRunOnly : State.reset.run = .running ∧ State.reset.run ≠ .paused ∧
    State.reset.pause.run = .paused ∧ State.reset.pause.run ≠ .running := by decide
/-- A paused core at LD V0,0x05, one at an unknown word at the last address a fetch can use, one past it, and a running
core. -/
theorem witness_SingleStepRunsOneInstruction :
    (({ State.reset.withFetchWord 16 0x6005 with run := .paused } : State).run = .paused ∧
      ({ State.reset.withFetchWord 16 0x6005 with run := .paused } : State).pc.toNat ≤ 0xFFE ∧
      decodeWord (({ State.reset.withFetchWord 16 0x6005 with run := .paused } : State).mem.word 0x200) =
        .ok (.ldVxKk 0 5)) ∧
    ((atPc 0xFFE).pause.run = .paused ∧ (atPc 0xFFE).pause.pc.toNat ≤ 0xFFE ∧
      decodeWord ((atPc 0xFFE).pause.mem.word (atPc 0xFFE).pause.pc.toNat) = .error (.unknownOpcode 0)) ∧
    ((atPc 0xFFF).pause.run = .paused ∧ 0xFFF ≤ (atPc 0xFFF).pause.pc.toNat) ∧
    State.reset.run ≠ .paused := by decide
/-- A code on each side of the limit. -/
theorem witness_KeyCommandsWriteOneKey : (15 = 15 ∧ 15 < 16) ∧ ¬ (16 = 16 ∧ 16 < 16) := by decide

end Sys2Proof.Tests
end

section
/-! The rules that the proofs about the state lean on: what a step, a key poll and a host action can answer, what
every instruction leaves of keys and image, and how a data access treats the keys. -/

namespace Sys2Proof.Machine

/-! ## What a step can answer -/

/-- Everything `ExecOne()` leaves, as a state (40_cycle.md R81). -/
theorem execOne_answers {s t : State} (h : execOne s = .next t) :
    (∃ a, t = s.raiseFetch a) ∨ (s.pc.toNat ≤ 0xFFE ∧ t = s.advance) ∨
      (s.pc.toNat ≤ 0xFFE ∧ ∃ i, t = nextOf i s) := by
  rcases execOne_cases s with ⟨_, a, _, he⟩ | ⟨hpc, _, he⟩ | ⟨hpc, i, _, he⟩
  · rw [he] at h
    cases h
    exact .inl ⟨a, rfl⟩
  · rw [he] at h
    cases h
    exact .inr (.inl ⟨hpc, rfl⟩)
  · rw [he, exec_next] at h
    cases h
    exact .inr (.inr ⟨hpc, i, rfl⟩)

/-- Everything a cycle leaves, as a state (40_cycle.md R80). -/
theorem cycle_answers {s t : State} (h : cycle s = .next t) :
    t = s ∨ t = keyWaitPoll s ∨ execOne s = .next t := by
  rcases cycle_cases s with ⟨_, hc⟩ | ⟨_, hc⟩ | ⟨_, hc⟩
  · rw [hc] at h
    cases h
    exact .inl rfl
  · rw [hc] at h
    cases h
    exact .inr (.inl rfl)
  · exact .inr (.inr (hc ▸ h))

/-- Everything `step()` leaves, as a state (60_exceptions.md R178). -/
theorem stepCommand_answers {s t : State} (h : stepCommand s = .next t) : t = s ∨ execOne s = .next t := by
  rcases stepCommand_cases s with ⟨_, hc⟩ | ⟨_, hc⟩
  · exact .inr (hc ▸ h)
  · rw [hc] at h
    cases h
    exact .inl rfl

/-- A poll ends the wait with a key code in `V[KX]`, or leaves the state alone (45_input_and_timers.md R154). -/
theorem keyWaitPoll_cases (s : State) :
    (∃ k, keyWaitPoll s = ({ s with run := .running } : State).setReg s.kx (BitVec.ofNat 8 k)) ∨
      keyWaitPoll s = s := by
  unfold keyWaitPoll
  cases s.lowestKey with
  | some k => exact .inl ⟨k, rfl⟩
  | none => exact .inr rfl

/-- A reply stands beside a next state and nothing else. -/
theorem withReply_eq_next_iff (o : Host.Outcome State Fault Refusal) (r q : Reply) (t : State) :
    withReply o r = .next (t, q) ↔ o = .next t ∧ r = q := by
  cases o <;> simp [withReply]

/-- `loadRom` copies an image that fits, or leaves the state alone (70_reset_and_hazards.md R192). -/
theorem perform_loadRom_answers {bytes : List Byte} {s t : State} {r : Reply}
    (h : perform (.loadRom bytes) s = .next (t, r)) : (romFits bytes = true ∧ t = s.loadImage bytes) ∨ t = s := by
  simp only [perform] at h
  split at h
  case isTrue hfit =>
    split at h
    · cases h
      exact .inl ⟨hfit, rfl⟩
    · cases h
  case isFalse =>
    cases h
    exact .inr rfl

/-! ## CALL and RET, case by case (41_control_flow.md R91, R93) -/

theorem nextOf_ret_nil {s : State} (h : s.stk = []) : nextOf .ret s = s.raiseStack .stackUnderflow := by
  simp [nextOf, h]

theorem nextOf_ret_cons {s : State} {t : Word} {rest : List Word} (h : s.stk = t :: rest) :
    nextOf .ret s = s.pop.jump (t + 2#16) := by
  simp [nextOf, h]

theorem nextOf_call_of_lt {s : State} (nnn : Addr) (h : s.sp < Params.stackDepth) :
    nextOf (.call nnn) s = (s.push s.pc).jump (addrOperand nnn) :=
  if_pos h

theorem nextOf_call_of_not_lt {s : State} (nnn : Addr) (h : ¬ s.sp < Params.stackDepth) :
    nextOf (.call nnn) s = s.raiseStack .stackOverflow :=
  if_neg h

/-- What holds of the underflow and of every return holds of `RET`. -/
theorem nextOf_ret_prop (P : State → Prop) (s : State) (hnil : P (s.raiseStack .stackUnderflow))
    (hcons : ∀ t ∈ s.stk, P (s.pop.jump (t + 2#16))) : P (nextOf .ret s) := by
  cases h : s.stk with
  | nil => rw [nextOf_ret_nil h]; exact hnil
  | cons t rest => rw [nextOf_ret_cons h]; exact hcons t (by simp [h])

/-- What holds of the overflow and of the transfer holds of `CALL`. -/
theorem nextOf_call_prop (P : State → Prop) (s : State) (nnn : Addr)
    (hfull : P (s.raiseStack .stackOverflow))
    (hcall : s.sp < Params.stackDepth → P ((s.push s.pc).jump (addrOperand nnn))) : P (nextOf (.call nnn) s) := by
  by_cases h : s.sp < Params.stackDepth
  · rw [nextOf_call_of_lt nnn h]; exact hcall h
  · rw [nextOf_call_of_not_lt nnn h]; exact hfull

/-! ## Keys and image -/

/-- No instruction writes the key latch (10_state.md R16). -/
@[simp] theorem nextOf_keys (i : Instr) (s : State) : (nextOf i s).keys = s.keys := by
  cases i
  case ret => exact nextOf_ret_prop (·.keys = s.keys) s rfl (fun _ _ => rfl)
  case call nnn => exact nextOf_call_prop (·.keys = s.keys) s nnn rfl (fun _ => rfl)
  case drwVxVyN | ldBVx | ldMemVx | ldVxMem =>
    exact s.accessing_prop (·.keys = s.keys) _ _ (fun _ => rfl) (fun _ => rfl)
  all_goals rfl

/-- No instruction writes the retained image (10_state.md R20). -/
@[simp] theorem nextOf_rom (i : Instr) (s : State) : (nextOf i s).rom = s.rom := by
  cases i
  case ret => exact nextOf_ret_prop (·.rom = s.rom) s rfl (fun _ _ => rfl)
  case call nnn => exact nextOf_call_prop (·.rom = s.rom) s nnn rfl (fun _ => rfl)
  case drwVxVyN | ldBVx | ldMemVx | ldVxMem =>
    exact s.accessing_prop (·.rom = s.rom) _ _ (fun _ => rfl) (fun _ => rfl)
  all_goals rfl

@[simp] theorem keyWaitPoll_keys (s : State) : (keyWaitPoll s).keys = s.keys := by
  rcases keyWaitPoll_cases s with ⟨k, h⟩ | h
  · rw [h]; rfl
  · rw [h]

@[simp] theorem keyWaitPoll_rom (s : State) : (keyWaitPoll s).rom = s.rom := by
  rcases keyWaitPoll_cases s with ⟨k, h⟩ | h
  · rw [h]; rfl
  · rw [h]

theorem execOne_keys_rom {s t : State} (h : execOne s = .next t) : t.keys = s.keys ∧ t.rom = s.rom := by
  rcases execOne_answers h with ⟨a, rfl⟩ | ⟨_, rfl⟩ | ⟨_, i, rfl⟩
  · exact ⟨rfl, rfl⟩
  · exact ⟨rfl, rfl⟩
  · exact ⟨nextOf_keys i s, nextOf_rom i s⟩

theorem cycle_keys_rom {s t : State} (h : cycle s = .next t) : t.keys = s.keys ∧ t.rom = s.rom := by
  rcases cycle_answers h with rfl | rfl | he
  · exact ⟨rfl, rfl⟩
  · exact ⟨keyWaitPoll_keys s, keyWaitPoll_rom s⟩
  · exact execOne_keys_rom he

/-- A key read depends on the key latch alone. -/
theorem State.key_congr {s t : State} (h : t.keys = s.keys) (k : Nat) : t.key k = s.key k := by
  simp [State.key, h]

/-! ## Other keys in the same state -/

/-- The state with other keys. -/
def State.withKeys (s : State) (ks : Vector Bool 16) : State := { s with keys := ks }

/-- A data access neither reads nor writes the keys, if its effect does not. -/
theorem State.accessing_withKeys {s t t' : State} {k : Nat} {ks : Vector Bool 16} (h : t' = t.withKeys ks) :
    (s.withKeys ks).accessing k t' = (s.accessing k t).withKeys ks := by
  subst h
  rcases s.accessing_cases t k with ⟨hn, ht⟩ | ⟨a, ha, ht⟩
  · rw [ht]
    exact State.accessing_ok _ _ _ ((dataFault_none_iff _ _).1 hn)
  · rw [ht, State.accessing, show (s.withKeys ks).i = s.i from rfl, ha]
    rfl

/-- The next state of every instruction but SKP and SKNP reads no key and writes none. -/
theorem nextOf_withKeys (i : Instr) (s : State) (ks : Vector Bool 16) (hskp : ∀ x, i ≠ .skpVx x)
    (hsknp : ∀ x, i ≠ .sknpVx x) : nextOf i (s.withKeys ks) = (nextOf i s).withKeys ks := by
  cases i
  case skpVx x => exact absurd rfl (hskp x)
  case sknpVx x => exact absurd rfl (hsknp x)
  case ret =>
    cases h : s.stk with
    | nil => rw [nextOf_ret_nil h, nextOf_ret_nil (s := s.withKeys ks) h]; rfl
    | cons t rest => rw [nextOf_ret_cons h, nextOf_ret_cons (s := s.withKeys ks) h]; rfl
  case call nnn =>
    by_cases h : s.sp < Params.stackDepth
    · rw [nextOf_call_of_lt nnn h, nextOf_call_of_lt (s := s.withKeys ks) nnn h]; rfl
    · rw [nextOf_call_of_not_lt nnn h, nextOf_call_of_not_lt (s := s.withKeys ks) nnn h]; rfl
  case drwVxVyN | ldBVx | ldMemVx | ldVxMem => exact State.accessing_withKeys rfl
  all_goals rfl

/-! ## Registers (10_state.md R10, R11) -/

theorem flagByte_zero_or_one (c : Bool) : flagByte c = 0#8 ∨ flagByte c = 1#8 := by
  cases c
  · exact .inl rfl
  · exact .inr rfl

/-- A flag-defining result leaves every register but its destination and `VF` alone. -/
theorem State.reg_setResultFlag_ne (s : State) {x r : RegIdx} (b : Byte) (c : Bool) (hx : r ≠ x)
    (hf : r ≠ vfIdx) : (s.setResultFlag x b c).reg r = s.reg r := by
  rw [State.reg_setResultFlag, if_neg hf, if_neg hx]

theorem State.reg_setResultFlag_vf (s : State) (x : RegIdx) (b : Byte) (c : Bool) :
    (s.setResultFlag x b c).reg vfIdx = flagByte c := by
  rw [State.reg_setResultFlag, if_pos rfl]

/-- A register that is neither a named destination nor a defined flag keeps its value. -/
theorem nextOf_reg_of_not_named (i : Instr) (s : State) (r : RegIdx) (hdest : ¬ i.namesDest r)
    (hflag : r ≠ vfIdx ∨ ¬ i.definesFlag) : (nextOf i s).reg r = s.reg r := by
  have hvf : i.definesFlag → r ≠ vfIdx := fun h => hflag.resolve_right (not_not_intro h)
  cases i
  case ret => exact nextOf_ret_prop (·.reg r = s.reg r) s rfl (fun _ _ => rfl)
  case call nnn => exact nextOf_call_prop (·.reg r = s.reg r) s nnn rfl (fun _ => rfl)
  case ldVxKk | addVxKk | ldVxVy | orVxVy | andVxVy | xorVxVy | rndVxKk | ldVxDt =>
    exact State.reg_setReg_ne _ _ _ _ hdest
  case addVxVy | subVxVy | shrVx | subnVxVy | shlVx =>
    exact s.reg_setResultFlag_ne _ _ hdest (hvf (by simp [Instr.definesFlag]))
  case drwVxVyN =>
    have hr : r ≠ vfIdx := hvf (by simp [Instr.definesFlag])
    exact s.accessing_prop (·.reg r = s.reg r) _ _ (fun _ => State.reg_setReg_ne _ _ _ _ hr) (fun _ => rfl)
  case ldVxMem x =>
    refine s.accessing_prop (·.reg r = s.reg r) _ _ (fun _ => ?_) (fun _ => rfl)
    rw [State.advance_reg, State.reg_loadRegs, if_neg (by simpa [Instr.namesDest] using hdest)]
  case ldBVx | ldMemVx => exact s.accessing_prop (·.reg r = s.reg r) _ _ (fun _ => rfl) (fun _ => rfl)
  all_goals rfl

/-- The flag that an instruction of the six leaves in `VF`, if it is no sprite out of range. -/
theorem nextOf_vf_of_definesFlag (i : Instr) (s : State) (hflag : i.definesFlag)
    (hrange : ∀ x y n, i = .drwVxVyN x y n → RangeOk s n.toNat) :
    ∃ c, (nextOf i s).reg vfIdx = flagByte c := by
  rcases hflag with ⟨x, y, rfl⟩ | ⟨x, y, rfl⟩ | ⟨x, y, rfl⟩ | ⟨x, rfl⟩ | ⟨x, rfl⟩ | ⟨x, y, n, rfl⟩
  case inr.inr.inr.inr.inr =>
    refine ⟨(s.spriteDraw x y n).2, ?_⟩
    rw [nextOf, s.accessing_ok _ _ (hrange x y n rfl), State.advance_reg, State.reg_setReg_same]
  all_goals exact ⟨_, s.reg_setResultFlag_vf x _ _⟩

end Sys2Proof.Machine
end

section
/-! The invariant of 10_state.md R24, one rule per state operation, and from these rules what every instruction, cycle
and host action keeps. -/

namespace Sys2Proof.Machine

/-! ## Arithmetic of program counters -/

/-- The bound that R24 gives `PC`: an address and a byte, added in 16 bits. -/
theorem word_add_toNat_le {w d : Word} (hw : w.toNat ≤ 0xFFF) (hd : d.toNat ≤ 0xFF) : (w + d).toNat ≤ 0x10FE := by
  rw [BitVec.toNat_add]
  omega

/-- A byte in a word is at most 0xFF. -/
theorem State.regWide_toNat_le (s : State) (x : RegIdx) : (s.regWide x).toNat ≤ 0xFF := by
  have := (s.reg x).isLt
  rw [State.regWide, BitVec.toNat_setWidth]
  omega

theorem addrOperand_toNat_le (nnn : Addr) : (addrOperand nnn).toNat ≤ 0xFFF := by
  have := nnn.isLt
  rw [addrOperand_toNat]
  omega

/-! ## One rule per state operation -/

/-- Registers, `I`, the display, the keys, `KX` and the draws are no part of the invariant. -/
theorem Inv.of_same {s t : State} (h : Inv s) (hmem : t.mem = s.mem) (hrom : t.rom = s.rom) (hpc : t.pc = s.pc)
    (hstk : t.stk = s.stk) (hhalt : t.run = .haltedByError → s.run = .haltedByError ∧ t.err = s.err) : Inv t where
  memWf := hmem ▸ h.memWf
  memInRange := hmem ▸ h.memInRange
  romFits := hrom ▸ h.romFits
  pcBound := hpc ▸ h.pcBound
  spBound := by rw [State.sp, hstk]; exact h.spBound
  stkBound := hstk ▸ h.stkBound
  haltedHasError hr := by
    obtain ⟨hs, he⟩ := hhalt hr
    exact he ▸ h.haltedHasError hs

theorem Inv.setReg {s : State} (h : Inv s) (x : RegIdx) (b : Byte) : Inv (s.setReg x b) :=
  h.of_same rfl rfl rfl rfl (⟨·, rfl⟩)

theorem Inv.setResultFlag {s : State} (h : Inv s) (x : RegIdx) (b : Byte) (c : Bool) : Inv (s.setResultFlag x b c) :=
  (h.setReg x b).setReg vfIdx (flagByte c)

theorem Inv.setI {s : State} (h : Inv s) (w : Word) : Inv (s.setI w) :=
  h.of_same rfl rfl rfl rfl (⟨·, rfl⟩)

theorem Inv.jump {s : State} (h : Inv s) {w : Word} (hw : w.toNat ≤ 0x10FE) : Inv (s.jump w) :=
  { h with pcBound := hw }

/-- After a fetch `PC` is at most 0xFFE, so no advance carries it past 0x1002. -/
theorem Inv.advance {s : State} (h : Inv s) (hpc : s.pc.toNat ≤ 0xFFE) : Inv s.advance :=
  h.jump (word_add_toNat_le (Nat.le_succ_of_le hpc) (by decide))

theorem Inv.skipIf {s : State} (h : Inv s) (hpc : s.pc.toNat ≤ 0xFFE) (c : Bool) : Inv (s.skipIf c) :=
  h.jump (word_add_toNat_le (Nat.le_succ_of_le hpc) (by cases c <;> decide))

/-- `CALL` pushes the address of a fetched instruction, and only below the depth of the stack. -/
theorem Inv.push {s : State} (h : Inv s) {w : Word} (hsp : s.sp < Params.stackDepth) (hw : w.toNat ≤ 0xFFE) :
    Inv (s.push w) :=
  { h with
    spBound := hsp
    stkBound := fun u hu => by
      rcases List.mem_cons.1 hu with rfl | hu
      · exact hw
      · exact h.stkBound u hu }

theorem Inv.pop {s : State} (h : Inv s) : Inv s.pop :=
  { h with
    spBound := by have := h.spBound; rw [State.sp_pop]; omega
    stkBound := fun u hu => h.stkBound u (List.mem_of_mem_tail hu) }

theorem Inv.raise {s : State} (h : Inv s) {kind : ErrKind} (hkind : kind ≠ .none) (op : Option Word)
    (a : Option FaultAddr) : Inv (s.raise kind op a) :=
  { h with haltedHasError := fun _ => hkind }

theorem Inv.raiseBounds {s : State} (h : Inv s) (a : FaultAddr) : Inv (s.raiseBounds a) :=
  h.raise (kind := .outOfBoundsMemoryAccess) nofun _ _

theorem Inv.raiseFetch {s : State} (h : Inv s) (a : FaultAddr) : Inv (s.raiseFetch a) :=
  h.raise (kind := .outOfBoundsMemoryAccess) nofun _ _

theorem Inv.raiseStack {s : State} (h : Inv s) {kind : ErrKind} (hkind : kind ≠ .none) : Inv (s.raiseStack kind) :=
  h.raise hkind _ _

/-- A data access keeps the invariant if its effect does when the range fits. -/
theorem Inv.accessing {s t : State} (h : Inv s) {k : Nat} (ht : RangeOk s k → Inv t) : Inv (s.accessing k t) :=
  s.accessing_prop Inv t k ht h.raiseBounds

/-- A store inside the address space keeps memory canonical and in range. -/
theorem Inv.writeBytes {s : State} (h : Inv s) {a : Nat} {bytes : List Byte} (hfit : a + bytes.length ≤ 4096) :
    Inv { s with mem := s.mem.writeBytes a bytes } :=
  { h with
    memWf := Memory.wf_writeBytes _ _ _ h.memWf
    memInRange := Memory.inRange_writeBytes _ _ _ hfit h.memInRange }

theorem Inv.storeAtI {s : State} (h : Inv s) (hpc : s.pc.toNat ≤ 0xFFE) {bytes : List Byte} (hne : bytes.length ≠ 0) :
    Inv (s.storeAtI bytes) :=
  h.accessing fun hrange => (h.writeBytes (hrange.resolve_left hne)).advance hpc

/-! ## Instructions and cycles -/

/-- Every instruction that was fetched keeps the invariant. -/
theorem Inv.nextOf {s : State} (h : Inv s) (hpc : s.pc.toNat ≤ 0xFFE) (i : Instr) : Inv (nextOf i s) := by
  cases i
  case ret =>
    refine nextOf_ret_prop Inv s (h.raiseStack (by decide)) fun t ht => h.pop.jump ?_
    exact word_add_toNat_le (Nat.le_succ_of_le (h.stkBound t ht)) (by decide)
  case call nnn =>
    refine nextOf_call_prop Inv s nnn (h.raiseStack (by decide)) fun hsp => (h.push hsp hpc).jump ?_
    exact (addrOperand_toNat_le nnn).trans (by decide)
  case jp nnn => exact h.jump ((addrOperand_toNat_le nnn).trans (by decide))
  case jpV0Addr nnn =>
    refine h.jump ?_
    rw [BitVec.add_comm]
    exact word_add_toNat_le (addrOperand_toNat_le nnn) (s.regWide_toNat_le 0#4)
  case seVxKk | sneVxKk | seVxVy | sneVxVy | skpVx | sknpVx => exact h.skipIf hpc _
  case ldVxKk | addVxKk | ldVxVy | orVxVy | andVxVy | xorVxVy => exact (h.setReg _ _).advance hpc
  case addVxVy | subVxVy | shrVx | subnVxVy | shlVx => exact (h.setResultFlag _ _ _).advance hpc
  case ldIAddr | addIVx | ldFVx => exact (h.setI _).advance hpc
  case ldDtVx | ldStVx => exact h.advance hpc
  case ldBVx x => exact h.storeAtI hpc (by simp [bcdDigits_length])
  case ldMemVx x => exact h.storeAtI hpc (by simp [State.regsUpTo_length])
  case ldVxMem x =>
    refine h.accessing fun _ => ?_
    exact Inv.advance (h.of_same rfl rfl rfl rfl (⟨·, rfl⟩)) hpc
  case drwVxVyN x y n =>
    refine h.accessing fun _ => ?_
    exact Inv.advance (h.of_same rfl rfl rfl rfl (⟨·, rfl⟩)) hpc
  case ldVxK x => exact Inv.advance (h.of_same rfl rfl rfl rfl nofun) hpc
  case cls | rndVxKk | ldVxDt => exact Inv.advance (h.of_same rfl rfl rfl rfl (⟨·, rfl⟩)) hpc

theorem Inv.execOne {s t : State} (h : Inv s) (he : execOne s = .next t) : Inv t := by
  rcases execOne_answers he with ⟨a, rfl⟩ | ⟨hpc, rfl⟩ | ⟨hpc, i, rfl⟩
  · exact h.raiseFetch a
  · exact h.advance hpc
  · exact h.nextOf hpc i

theorem Inv.keyWaitPoll {s : State} (h : Inv s) : Inv (keyWaitPoll s) := by
  rcases keyWaitPoll_cases s with ⟨k, hk⟩ | hk
  · rw [hk]
    exact h.of_same rfl rfl rfl rfl nofun
  · rw [hk]
    exact h

theorem Inv.cycle {s t : State} (h : Inv s) (hc : cycle s = .next t) : Inv t := by
  rcases cycle_answers hc with rfl | rfl | he
  · exact h
  · exact h.keyWaitPoll
  · exact h.execOne he

/-! ## Reset and host commands -/

/-- Memory rebuilt from an image that `loadRom` accepts lies inside the address space. -/
theorem Memory.inRange_ofRom {image : List Byte} (h : romFits image = true) : (Memory.ofRom image).inRange = true := by
  have hlen : image.length ≤ 3584 := of_decide_eq_true h
  exact Memory.inRange_writeBytes _ _ _ (by simp only [Config.romBase]; omega) rfl

theorem Inv.reset : Inv State.reset where
  memWf := Memory.wf_reset
  memInRange := rfl
  romFits := rfl
  pcBound := by decide
  spBound := Nat.zero_le _
  stkBound := nofun
  haltedHasError := nofun

theorem Inv.resetCommand {s : State} (h : Inv s) : Inv s.resetCommand :=
  { Inv.reset with
    memWf := Memory.wf_ofRom s.rom
    memInRange := Memory.inRange_ofRom h.romFits
    romFits := h.romFits }

theorem Inv.loadImage {s : State} (h : Inv s) {bytes : List Byte} (hfit : Sys2Proof.romFits bytes = true) :
    Inv (s.loadImage bytes) :=
  have hlen : bytes.length ≤ 3584 := of_decide_eq_true hfit
  { h.writeBytes (a := Config.romBase) (bytes := bytes) (by simp only [Config.romBase]; omega) with romFits := hfit }

theorem Inv.pause {s : State} (h : Inv s) : Inv s.pause := by
  unfold State.pause
  split
  · exact h.of_same rfl rfl rfl rfl nofun
  all_goals exact h

theorem Inv.resume {s : State} (h : Inv s) : Inv s.resume := by
  unfold State.resume
  split
  · exact h.of_same rfl rfl rfl rfl nofun
  all_goals exact h

theorem Inv.setKey {s : State} (h : Inv s) (code : Nat) (b : Bool) : Inv (s.setKey code b) := by
  unfold State.setKey
  split
  · exact h.of_same rfl rfl rfl rfl (⟨·, rfl⟩)
  · exact h

theorem Inv.stepCommand {s t : State} (h : Inv s) (hs : stepCommand s = .next t) : Inv t := by
  rcases stepCommand_answers hs with rfl | he
  · exact h
  · exact h.execOne he

theorem Inv.perform {a : HostAction} {s t : State} {r : Reply} (h : Inv s) (hp : perform a s = .next (t, r)) :
    Inv t := by
  cases a with
  | cycle => exact h.cycle ((withReply_eq_next_iff _ _ _ _).1 hp).1
  | step => exact h.stepCommand ((withReply_eq_next_iff _ _ _ _).1 hp).1
  | pause => cases hp; exact h.pause
  | resume => cases hp; exact h.resume
  | setKeyPressed code => cases hp; exact h.setKey code true
  | setKeyReleased code => cases hp; exact h.setKey code false
  | reset => cases hp; exact h.resetCommand
  | query => cases hp; exact h
  | loadRom bytes =>
    rcases perform_loadRom_answers hp with ⟨hfit, rfl⟩ | rfl
    · exact h.loadImage hfit
    · exact h

end Sys2Proof.Machine
end

section
/-! The statements about the state (10_state.md), each from the rules above. -/

namespace Sys2Proof.Machine

/-- Settles O46: an inversion of `cycle`, then one rule of the invariant for each state operation. -/
theorem everyStepKeepsTheInvariant : Obligations.EveryStepKeepsTheInvariant :=
  fun _ _ h hs => h.cycle hs

/-- Settles O48, by the kind of host action. -/
theorem hostActionsKeepTheInvariant : Obligations.HostActionsKeepTheInvariant :=
  fun _ _ _ _ h hp => h.perform hp

/-- Settles O50: an unnamed register by the kind of instruction, the flag by the six that define it. -/
theorem registersChangeOnlyWhenNamed : Obligations.RegistersChangeOnlyWhenNamed := by
  intro i s t h
  rw [exec_next] at h
  cases h
  refine ⟨nextOf_reg_of_not_named i s, fun hflag hrange => ?_⟩
  obtain ⟨c, hc⟩ := nextOf_vf_of_definesFlag i s hflag hrange
  exact hc ▸ flagByte_zero_or_one c

/-- Settles O51: a fetch fault, an unknown word, an instruction and a key poll all leave keys and image alone. -/
theorem stepsNeverWriteKeysOrImage : Obligations.StepsNeverWriteKeysOrImage := by
  intro s t h
  obtain ⟨hkeys, hrom⟩ := cycle_keys_rom h
  exact ⟨State.key_congr hkeys, hrom⟩

/-- Settles O52: the next state of the other instructions commutes with a change of the keys. -/
theorem onlyKeySkipsReadTheKeys : Obligations.OnlyKeySkipsReadTheKeys :=
  fun i s ks hskp hsknp => ⟨nextOf i s, exec_next i s,
    (exec_next i (s.withKeys ks)).trans (congrArg _ (nextOf_withKeys i s ks hskp hsknp))⟩

/-- Settles O47, clause by clause: reset memory lists no cell, the stack is empty and the core runs. -/
theorem resetSatisfiesTheInvariant : Obligations.ResetSatisfiesTheInvariant :=
  Inv.reset

/-! ## The construction state (10_state.md R22) -/

theorem State.reset_reg (r : RegIdx) : State.reset.reg r = 0#8 :=
  Vector.getElem_replicate _

theorem State.reset_key (k : Nat) : State.reset.key k = false := by
  by_cases hk : k < 16
  · simp [State.key, State.reset, hk]
  · exact State.key_outside _ _ (Nat.le_of_not_lt hk)

theorem font_length : Params.font.length = 80 := by decide

/-- An address nothing has written reads as FONT, which stands at 0, and as 0 after it (20_memory.md R44). -/
theorem unlistedByte_eq (a : Nat) : unlistedByte a = Params.font.getD a 0#8 :=
  if_pos (Nat.zero_le a)

/-- Settles O54: memory at construction lists nothing, so it reads as FONT and zeros. -/
theorem resetStateIsConstruction : Obligations.ResetStateIsConstruction := by
  have hread (a : Nat) : State.reset.mem.read a = Params.font.getD a 0#8 := unlistedByte_eq a
  refine ⟨State.reset_reg, rfl, rfl, rfl, Plane.cell_clear, State.reset_key, rfl, rfl, rfl, fun a ha => ?_,
    fun a ha => ?_⟩
  · have hlt : a < Params.font.length := by rw [font_length]; exact ha
    rw [hread, List.getD_eq_getElem _ _ hlt, List.getElem?_eq_getElem hlt]
  · rw [hread, List.getD_eq_default _ _ (by rw [font_length]; exact ha)]

end Sys2Proof.Machine
end

section
/-! The rules that the proofs about memory (20_memory.md) lean on: what a raise leaves, when a data access raises, which
instruction the next step runs, and which instructions leave each store alone. -/

namespace Sys2Proof.Machine

/-! ## Errors (60_exceptions.md R165) -/

/-- Whatever its record, an error leaves all state but `RUN` and `ERR`. -/
theorem State.raise_frameError (s : State) (kind : ErrKind) (op : Option Word) (a : Option FaultAddr) :
    FrameError s (s.raise kind op a) :=
  ⟨fun _ _ => rfl, rfl, rfl, fun _ => rfl, fun _ _ => rfl, ⟨rfl, fun _ => rfl⟩, fun _ => rfl, rfl, rfl, rfl, rfl⟩

/-- An instruction that accesses `k` bytes at `I` raises if they do not fit, whatever its effect would be
(20_memory.md R47). -/
theorem exec_raised_of_accessing {i : Instr} {s t : State} {k : Nat} (hi : nextOf i s = s.accessing k t)
    (hpos : 0 < k) (hout : 0x1000 < s.i.toNat + k) :
    ∃ u, exec i s = .next u ∧ Raised .outOfBoundsMemoryAccess (some (max s.i.toNat 0x1000)) s u := by
  refine ⟨nextOf i s, exec_next i s, ?_⟩
  rw [hi, s.accessing_fault t k hpos hout]
  exact s.raiseBounds_raised

/-! ## The step of a running core (40_cycle.md R80, R81) -/

theorem step_of_running {s : State} (hrun : s.run = .running) : step s = execOne s := by
  simp only [step, cycle, hrun]

/-- A running core whose `PC` has a word runs the instruction that word decodes to. -/
theorem step_of_decodes {s : State} {i : Instr} (hrun : s.run = .running) (hpc : s.pc.toNat ≤ 0xFFE)
    (hdec : decodeWord (s.mem.word s.pc.toNat) = .ok i) : step s = exec i s := by
  rw [step_of_running hrun, execOne, s.fetch_ok hpc]
  simp only [hdec]

/-- A running core whose `PC` has no word raises at the first address out of range (20_memory.md R46). -/
theorem step_of_fetch_fault {s : State} (hrun : s.run = .running) (hpc : 0xFFF ≤ s.pc.toNat) :
    ∃ a : FaultAddr, a.toNat = max s.pc.toNat 0x1000 ∧ step s = .next (s.raiseFetch a) := by
  rw [step_of_running hrun]
  rcases execOne_cases s with ⟨_, hfault⟩ | ⟨hle, _⟩ | ⟨hle, _⟩
  · exact hfault
  · omega
  · omega

/-! ## Words in stored registers (20_memory.md R42) -/

/-- A store of `V[0], …, V[x]` leaves `V[j]` at its `j`-th address. -/
theorem State.read_writeBytes_regsUpTo (s : State) (x j : RegIdx) (a : Nat) (hj : j.toNat ≤ x.toNat) :
    (s.mem.writeBytes a (s.regsUpTo x)).read (a + j.toNat) = s.reg j := by
  rw [Memory.read_writeBytes, if_pos (by rw [s.regsUpTo_length]; omega), Nat.add_sub_cancel_left,
    List.getD_eq_getElem?_getD, s.getElem?_regsUpTo x j hj, Option.getD_some]

/-- A store that includes `V[1]` leaves the word `V[0] V[1]` where it begins. -/
theorem State.word_writeBytes_regsUpTo (s : State) (x : RegIdx) (a : Nat) (hx : 1 ≤ x.toNat) :
    (s.mem.writeBytes a (s.regsUpTo x)).word a = wordOfBytes (s.reg 0#4) (s.reg 1#4) :=
  congrArg₂ wordOfBytes (s.read_writeBytes_regsUpTo x 0#4 a (Nat.zero_le _)) (s.read_writeBytes_regsUpTo x 1#4 a hx)

/-! ## Which instructions leave a store alone -/

/-- Only `LD B,Vx` and `LD [I],Vx` write memory (20_memory.md R41). -/
theorem nextOf_mem {i : Instr} (s : State) (hbcd : ∀ x, i ≠ .ldBVx x) (hstore : ∀ x, i ≠ .ldMemVx x) :
    (nextOf i s).mem = s.mem := by
  cases i
  case ldBVx x => exact absurd rfl (hbcd x)
  case ldMemVx x => exact absurd rfl (hstore x)
  case ret => exact nextOf_ret_prop (·.mem = s.mem) s rfl (fun _ _ => rfl)
  case call nnn => exact nextOf_call_prop (·.mem = s.mem) s nnn rfl (fun _ => rfl)
  case drwVxVyN | ldVxMem => exact s.accessing_prop (·.mem = s.mem) _ _ (fun _ => rfl) (fun _ => rfl)
  all_goals rfl

/-- Only `CLS` and `DRW` write the display plane (10_state.md R15). -/
theorem nextOf_fb {i : Instr} (s : State) (hcls : i ≠ .cls) (hdrw : ∀ x y n, i ≠ .drwVxVyN x y n) :
    (nextOf i s).fb = s.fb := by
  cases i
  case cls => exact absurd rfl hcls
  case drwVxVyN x y n => exact absurd rfl (hdrw x y n)
  case ret => exact nextOf_ret_prop (·.fb = s.fb) s rfl (fun _ _ => rfl)
  case call nnn => exact nextOf_call_prop (·.fb = s.fb) s nnn rfl (fun _ => rfl)
  case ldBVx | ldMemVx | ldVxMem => exact s.accessing_prop (·.fb = s.fb) _ _ (fun _ => rfl) (fun _ => rfl)
  all_goals rfl

/-- Only `LD I,addr`, `ADD I,Vx` and `LD F,Vx` write `I` (10_state.md R12). -/
theorem nextOf_i {i : Instr} (s : State) (hload : ∀ nnn, i ≠ .ldIAddr nnn) (hadd : ∀ x, i ≠ .addIVx x)
    (hfont : ∀ x, i ≠ .ldFVx x) : (nextOf i s).i = s.i := by
  cases i
  case ldIAddr nnn => exact absurd rfl (hload nnn)
  case addIVx x => exact absurd rfl (hadd x)
  case ldFVx x => exact absurd rfl (hfont x)
  case ret => exact nextOf_ret_prop (·.i = s.i) s rfl (fun _ _ => rfl)
  case call nnn => exact nextOf_call_prop (·.i = s.i) s nnn rfl (fun _ => rfl)
  case drwVxVyN | ldBVx | ldMemVx | ldVxMem =>
    exact s.accessing_prop (·.i = s.i) _ _ (fun _ => rfl) (fun _ => rfl)
  all_goals rfl

/-- Only `CALL` and `RET` write the stack (10_state.md R14). -/
theorem nextOf_stk {i : Instr} (s : State) (hcall : ∀ nnn, i ≠ .call nnn) (hret : i ≠ .ret) :
    (nextOf i s).stk = s.stk := by
  cases i
  case call nnn => exact absurd rfl (hcall nnn)
  case ret => exact absurd rfl hret
  case drwVxVyN | ldBVx | ldMemVx | ldVxMem =>
    exact s.accessing_prop (·.stk = s.stk) _ _ (fun _ => rfl) (fun _ => rfl)
  all_goals rfl

theorem SameMem.of_eq {s t : State} (h : t.mem = s.mem) : SameMem s t :=
  fun a => congrArg (·.read a) h

theorem SamePlane.of_eq {s t : State} (h : t.fb = s.fb) : SamePlane s t :=
  fun row col => congrArg (·.cell row col) h

theorem SameStack.of_eq {s t : State} (h : t.stk = s.stk) : SameStack s t :=
  ⟨congrArg List.length h, fun j => congrArg (·.reverse[j]?) h⟩

end Sys2Proof.Machine
end

section
/-! The statements about memory (20_memory.md), each from the rules above. -/

namespace Sys2Proof.Machine

/-- Settles O22: each of the four is a data access, of 3, x + 1, x + 1 and n bytes, whose range does not fit. -/
theorem outOfRangeDataHaltsWithoutEffect : Obligations.OutOfRangeDataHaltsWithoutEffect := by
  intro x y n s
  refine ⟨fun h => ?_, fun h => ?_, fun h => ?_, fun hn h => ?_⟩
  · exact exec_raised_of_accessing (k := (bcdDigits (s.reg x)).length) rfl (by rw [bcdDigits_length]; omega)
      (by rw [bcdDigits_length]; omega)
  · exact exec_raised_of_accessing (k := (s.regsUpTo x).length) rfl (by rw [s.regsUpTo_length]; omega)
      (by rw [s.regsUpTo_length]; omega)
  · exact exec_raised_of_accessing (k := x.toNat + 1) rfl (by omega) (by omega)
  · exact exec_raised_of_accessing (k := n.toNat) rfl hn (by omega)

/-- Settles O24: the store advances `PC` to `I`, where it has left the word `V[0] V[1]` for the next fetch. -/
theorem storeIsSeenByTheNextFetch : Obligations.StoreIsSeenByTheNextFetch := by
  intro x s hrun hx hi hfit
  have hstore : nextOf (.ldMemVx x) s =
      ({ s with mem := s.mem.writeBytes s.i.toNat (s.regsUpTo x) } : State).advance :=
    s.storeAtI_ok _ (by rw [s.regsUpTo_length]; omega)
  refine ⟨_, exec_next _ s, fun j hj => ?_⟩
  rw [hstore]
  refine step_of_decodes hrun ?_ ?_
  · rw [State.advance_pc, ← hi]
    omega
  · rw [State.advance_pc, State.advance_mem, ← hi, s.word_writeBytes_regsUpTo x _ hx]
    exact hj

/-- Settles O49, store by store. -/
theorem onlyNamedInstructionsWriteEachStore : Obligations.OnlyNamedInstructionsWriteEachStore := by
  intro i s t h
  rw [exec_next] at h
  cases h
  exact ⟨fun hbcd hstore => .of_eq (nextOf_mem s hbcd hstore), fun hcls hdrw => .of_eq (nextOf_fb s hcls hdrw),
    nextOf_i s, fun hcall hret => .of_eq (nextOf_stk s hcall hret), State.key_congr (nextOf_keys i s), nextOf_rom i s⟩

/-- Settles O35: the fetch raises, and a raise writes `RUN` and `ERR` only. -/
theorem fetchPastMemoryHalts : Obligations.FetchPastMemoryHalts := by
  intro s hrun hpc
  obtain ⟨a, ha, hstep⟩ := step_of_fetch_fault hrun hpc
  exact ⟨s.raiseFetch a, hstep, rfl, rfl, rfl, ha, s.raise_frameError _ _ _⟩

end Sys2Proof.Machine
end

section
/-! The rules that the proofs about the encoding (30_encoding.md) lean on: the row an instruction stands for, its
operands as the fields of a word, the bits it uses, and the keys the opcode map holds. -/

namespace Sys2Proof

/-! ## The row of an instruction (30_encoding.md R66)

The constructors of `Instr` stand in the order of the opcode map, so the row of an instruction is found by position. -/

theorem Instr.ctorIdx_lt (i : Instr) : i.ctorIdx < opcodeMap.length := by
  cases i <;> exact Nat.le_of_ble_eq_true rfl

/-- The row of the opcode map that an instruction stands for. -/
def Instr.mapRow (i : Instr) : OpcodeRow := opcodeMap[i.ctorIdx]'i.ctorIdx_lt

theorem Instr.mapRow_mem (i : Instr) : i.mapRow ∈ opcodeMap :=
  List.getElem_mem _

@[simp] theorem Instr.mapRow_pat (i : Instr) : i.mapRow.pat = i.row.1 := by
  cases i <;> rfl

@[simp] theorem Instr.familyMask_row (i : Instr) : familyMask (fieldFamily i.row.1) = i.row.2 := by
  cases i <;> simp [row, fieldFamily, familyMask]

/-- A row builds only instructions that stand for it. -/
theorem mapRow_build {row : OpcodeRow} (h : row ∈ opcodeMap) (op : Word) : (row.build op).mapRow = row := by
  have hmap : opcodeMap.map (fun r => (r.build op).mapRow) = opcodeMap.map id := rfl
  exact List.map_inj_left.1 hmap row h

/-! ## Operands are the fields of the word (30_encoding.md R62) -/

theorem fieldX_eq_iff (op : Word) (x : RegIdx) : fieldX op = x ↔ x.toNat = op.toNat / 256 % 16 := by
  rw [BitVec.toNat_eq, fieldX_toNat, eq_comm]

theorem fieldY_eq_iff (op : Word) (y : RegIdx) : fieldY op = y ↔ y.toNat = op.toNat / 16 % 16 := by
  rw [BitVec.toNat_eq, fieldY_toNat, eq_comm]

theorem fieldN_eq_iff (op : Word) (n : Nibble) : fieldN op = n ↔ n.toNat = op.toNat % 16 := by
  rw [BitVec.toNat_eq, fieldN_toNat, eq_comm]

theorem fieldKk_eq_iff (op : Word) (kk : Byte) : fieldKk op = kk ↔ kk.toNat = op.toNat % 256 := by
  rw [BitVec.toNat_eq, fieldKk_toNat, eq_comm]

theorem fieldNnn_eq_iff (op : Word) (nnn : Addr) : fieldNnn op = nnn ↔ nnn.toNat = op.toNat % 4096 := by
  rw [BitVec.toNat_eq, fieldNnn_toNat, eq_comm]

/-- The row of an instruction builds it from exactly the words that hold its operands. -/
theorem Instr.mapRow_build_iff (i : Instr) (op : Word) : i.mapRow.build op = i ↔ i.operandsOf op.toNat := by
  cases i <;>
    simp [mapRow, Instr.ctorIdx, opcodeMap, rowsLow, rowsAlu, rowsHigh, rowsF, operandsOf, fieldX_eq_iff,
      fieldY_eq_iff, fieldN_eq_iff, fieldKk_eq_iff, fieldNnn_eq_iff]

/-- The decoder, instruction by instruction: the word matches the row and the row builds the instruction from it. -/
theorem decodeWord_ok_iff_mapRow (op : Word) (i : Instr) :
    decodeWord op = .ok i ↔ op &&& i.row.2 = i.row.1 ∧ i.mapRow.build op = i := by
  rw [decodeWord_ok_iff]
  constructor
  · rintro ⟨row, hmem, hkey, rfl⟩
    have hrow : (row.build op).mapRow = row := mapRow_build hmem op
    rw [← hrow, Instr.mapRow_pat, Instr.familyMask_row] at hkey
    exact ⟨hkey, by rw [hrow]⟩
  · rintro ⟨hkey, hbuild⟩
    exact ⟨i.mapRow, i.mapRow_mem, by rw [Instr.mapRow_pat, Instr.familyMask_row, hkey], hbuild⟩

theorem decodeWord_ok_iff_operandsOf (op : Word) (i : Instr) :
    decodeWord op = .ok i ↔ op &&& i.row.2 = i.row.1 ∧ i.operandsOf op.toNat := by
  rw [decodeWord_ok_iff_mapRow, Instr.mapRow_build_iff]

/-! ## The encoder (30_encoding.md R61) -/

/-- The law of the encoder for every instruction, from the law of each. -/
theorem encodingFits (i : Instr) : Laws.EncodingFits.Statement i := by
  open Laws.EncodingFits in
  cases i
  exacts [cls, ret, jp _, call _, seVxKk _ _, sneVxKk _ _, seVxVy _ _, ldVxKk _ _, addVxKk _ _, ldVxVy _ _, orVxVy _ _,
    andVxVy _ _, xorVxVy _ _, addVxVy _ _, subVxVy _ _, shrVx _, subnVxVy _ _, shlVx _, sneVxVy _ _, ldIAddr _,
    jpV0Addr _, rndVxKk _ _, drwVxVyN _ _ _, skpVx _, sknpVx _, ldVxDt _, ldVxK _, ldDtVx _, ldStVx _, addIVx _,
    ldFVx _, ldBVx _, ldMemVx _, ldVxMem _]

@[simp] theorem decodeWord_encode (i : Instr) : decodeWord (encode i) = .ok i := by
  obtain ⟨-, hrow, hoperands, -⟩ := encodingFits i
  exact (decodeWord_ok_iff_operandsOf _ _).2 ⟨hrow, hoperands⟩

theorem encode_and_usedBits (i : Instr) : encode i &&& i.usedBits = encode i := by
  obtain ⟨-, -, -, hused⟩ := encodingFits i
  exact hused

@[simp] theorem decodeBytes_encodeBytes (i : Instr) (rest : List Byte) :
    decodeBytes (encodeBytes i ++ rest) = .ok (i, rest) := by
  simp [encodeBytes, decodeBytes, Machine.wordOfBytes_halves]

/-! ## Ignored bits (30_encoding.md R68) -/

/-- An instruction uses every bit that its row tests. -/
theorem Instr.usedBits_and_mask (i : Instr) : i.usedBits &&& i.row.2 = i.row.2 := by
  cases i <;> simp only [row, usedBits] <;> decide

/-- The operands of an instruction lie in the bits it uses. -/
theorem Instr.mapRow_build_and_usedBits (i : Instr) (op : Word) :
    i.mapRow.build (op &&& i.usedBits) = i.mapRow.build op := by
  cases i
  case cls | ret => rfl
  case seVxVy x y =>
    exact congrArg₂ Instr.seVxVy (fieldX_and op 0xFFF0#16 (by decide)) (fieldY_and op 0xFFF0#16 (by decide))
  case sneVxVy x y =>
    exact congrArg₂ Instr.sneVxVy (fieldX_and op 0xFFF0#16 (by decide)) (fieldY_and op 0xFFF0#16 (by decide))
  case shrVx x => exact congrArg Instr.shrVx (fieldX_and op 0xFF0F#16 (by decide))
  case shlVx x => exact congrArg Instr.shlVx (fieldX_and op 0xFF0F#16 (by decide))
  all_goals exact congrArg _ (and_all op)

/-- Clearing the ignored bits of an instruction does not change whether a word decodes to it. -/
theorem decodeWord_and_usedBits (op : Word) (i : Instr) :
    decodeWord (op &&& i.usedBits) = .ok i ↔ decodeWord op = .ok i := by
  rw [decodeWord_ok_iff_mapRow, decodeWord_ok_iff_mapRow, BitVec.and_assoc, i.usedBits_and_mask,
    i.mapRow_build_and_usedBits]

/-! ## Unknown words (30_encoding.md R67) -/

/-- A word as two numbers, its family and its other 12 bits. -/
def familyAndRest (op : Word) : Nat × Nat := (op.toNat / 4096, op.toNat % 4096)

theorem familyAndRest_injective : Function.Injective familyAndRest := by
  intro a b h
  obtain ⟨hdiv, hmod⟩ := Prod.mk.inj h
  exact BitVec.eq_of_toNat_eq (by omega)

/-- The match values of the opcode map, family by family. -/
theorem opcodeMap_familyAndRest : opcodeMap.map (fun row => familyAndRest row.pat) =
    [(0x0, 0xE0), (0x0, 0xEE), (0x1, 0), (0x2, 0), (0x3, 0), (0x4, 0), (0x5, 0), (0x6, 0), (0x7, 0), (0x8, 0x0),
      (0x8, 0x1), (0x8, 0x2), (0x8, 0x3), (0x8, 0x4), (0x8, 0x5), (0x8, 0x6), (0x8, 0x7), (0x8, 0xE), (0x9, 0),
      (0xA, 0), (0xB, 0), (0xC, 0), (0xD, 0), (0xE, 0x9E), (0xE, 0xA1), (0xF, 0x07), (0xF, 0x0A), (0xF, 0x15),
      (0xF, 0x18), (0xF, 0x1E), (0xF, 0x29), (0xF, 0x33), (0xF, 0x55), (0xF, 0x65)] := rfl

/-- The key of a word keeps its family, and of the rest the low byte, the low nibble or nothing, by the family. -/
theorem familyAndRest_decodeKey (op : Word) : familyAndRest (decodeKey op) = (op.toNat / 4096,
    if op.toNat / 4096 = 0x0 ∨ op.toNat / 4096 = 0xE ∨ op.toNat / 4096 = 0xF then op.toNat % 256
    else if op.toNat / 4096 = 0x8 then op.toNat % 16 else 0) := by
  have hfam (k : Nibble) : fieldFamily op = k ↔ op.toNat / 4096 = k.toNat := by
    rw [BitVec.toNat_eq, fieldFamily_toNat]
  simp only [familyAndRest, decodeKey, familyMask, hfam, BitVec.reduceToNat]
  split_ifs
  · rw [maskLow_toNat, Prod.mk.injEq]
    omega
  · rw [maskAlu_toNat, Prod.mk.injEq]
    omega
  · rw [maskHigh_toNat, Prod.mk.injEq]
    omega

/-- A word is unknown exactly when no row has its key. -/
theorem decodeWord_unknown_iff (op : Word) : decodeWord op = .error (.unknownOpcode op) ↔
    familyAndRest (decodeKey op) ∉ opcodeMap.map (fun row => familyAndRest row.pat) := by
  have hnone : decodeWord op = .error (.unknownOpcode op) ↔
      opcodeMap.find? (fun row => row.pat == decodeKey op) = none := by
    unfold decodeWord
    cases opcodeMap.find? _ <;> simp
  rw [hnone, List.find?_eq_none]
  simp [familyAndRest_injective.eq_iff]

/-- The low nibbles for which family 0x8 has no row. -/
theorem aluNibble_unlisted_iff {n : Nat} (hn : n < 16) :
    n ∉ [0x0, 0x1, 0x2, 0x3, 0x4, 0x5, 0x6, 0x7, 0xE] ↔ n ∈ [0x8, 0x9, 0xA, 0xB, 0xC, 0xD, 0xF] := by
  decide +revert

end Sys2Proof
end

section
/-! The statements about the encoding (30_encoding.md), each from the rules above. -/

namespace Sys2Proof.Machine

/-- Settles O41: the encoder's word matches the instruction's row and holds its operands, and the two bytes are the
halves of that word. -/
theorem decodeOfEncodeIsTheInstruction : Obligations.DecodeOfEncodeIsTheInstruction :=
  fun i rest _ => ⟨decodeWord_encode i, decodeBytes_encodeBytes i rest⟩

/-- Settles O42: the row by the position of the instruction in the map, the operands field by field. -/
theorem decodeFollowsTheOpcodeMap : Obligations.DecodeFollowsTheOpcodeMap :=
  decodeWord_ok_iff_operandsOf

/-- Settles O43: family by family, the bits of the key that no row has. -/
theorem unknownWordsAreTheListedOnes : Obligations.UnknownWordsAreTheListedOnes := by
  intro op
  refine ⟨?_, decodeWord_cases op⟩
  rw [decodeWord_unknown_iff, opcodeMap_familyAndRest, familyAndRest_decodeKey]
  have hfam : op.toNat / 4096 < 16 := Nat.div_lt_of_lt_mul op.isLt
  generalize op.toNat / 4096 = fam at hfam ⊢
  by_cases halu : fam = 0x8
  · subst halu
    simpa using aluNibble_unlisted_iff (Nat.mod_lt op.toNat (by decide))
  · interval_cases fam <;> simp at halu ⊢

/-- Settles O44: both words decode as the word of the bits they share. -/
theorem ignoredBitsNeverMatter : Obligations.IgnoredBitsNeverMatter := by
  refine ⟨fun op op' i hdec hagree => ?_, encode_and_usedBits⟩
  rw [← decodeWord_and_usedBits, ← hagree, decodeWord_and_usedBits]
  exact hdec

/-- Settles O45, each word by evaluation of the decoder. -/
theorem sampleWordsDecode : Obligations.SampleWordsDecode := by
  unfold Obligations.SampleWordsDecode
  decide

end Sys2Proof.Machine
end

section
/-! The rules that the proofs about the cycle (40_cycle.md) lean on: what an advance leaves, what a step does at an
unknown word and at a jump to itself, and how an instruction ends. -/

namespace Sys2Proof.Machine

/-! ## Unknown words (40_cycle.md R84) -/

/-- The advance leaves all state but `PC`. -/
theorem State.advance_frameRegs (s : State) : FrameRegs [] s s.advance :=
  ⟨fun _ _ => rfl, rfl, fun _ => rfl, fun _ _ => rfl, ⟨rfl, fun _ => rfl⟩, fun _ => rfl, ⟨rfl, rfl, rfl⟩, rfl⟩

/-- A running core whose `PC` has a word that is no instruction advances. -/
theorem step_of_unknown {s : State} {e : DecodeError} (hrun : s.run = .running) (hpc : s.pc.toNat ≤ 0xFFE)
    (hdec : decodeWord (s.mem.word s.pc.toNat) = .error e) : step s = .next s.advance := by
  rw [step_of_running hrun, execOne, s.fetch_ok hpc]
  simp only [hdec, unknownNop]

/-- A cycle of a running core emits the event of `ExecOne()`. -/
theorem cycleEvent_of_running {s : State} (hrun : s.run = .running) : cycleEvent s = unknownOpcodeEvent s :=
  if_pos hrun

/-- A core that is not running emits no event (60_exceptions.md R163). -/
theorem cycleEvent_of_not_running {s : State} (hrun : s.run ≠ .running) : cycleEvent s = none :=
  if_neg hrun

/-! ## The jump to itself (40_cycle.md R88) -/

/-- A word below 0x1000 comes back from the 12-bit operand of a jump. -/
theorem addrOperand_setWidth {w : Word} (hw : w.toNat < 0x1000) : addrOperand (w.setWidth 12) = w := by
  apply BitVec.eq_of_toNat_eq
  rw [addrOperand_toNat, BitVec.toNat_setWidth]
  exact Nat.mod_eq_of_lt hw

theorem AtRest.pc_lt {s : State} (h : AtRest s) : s.pc.toNat < 0xFFF := by
  obtain ⟨-, hpc, -⟩ := h
  exact hpc

/-- The fetched word of a core at rest is the jump to `PC`. -/
theorem AtRest.word_eq {s : State} (h : AtRest s) : s.mem.word s.pc.toNat = encode (.jp (s.pc.setWidth 12)) := by
  have hfit : s.pc.toNat % 2 ^ 12 = s.pc.toNat := Nat.mod_eq_of_lt (h.pc_lt.trans (by decide))
  obtain ⟨-, -, hword⟩ := h
  apply BitVec.eq_of_toNat_eq
  rw [hword, encode, encodeA_toNat, BitVec.toNat_setWidth, hfit]
  rfl

/-- A core at rest runs the jump to its `PC`. -/
theorem AtRest.step_eq {s : State} (h : AtRest s) : step s = exec (.jp (s.pc.setWidth 12)) s := by
  have hpc : s.pc.toNat ≤ 0xFFE := Nat.le_of_lt_succ h.pc_lt
  have hdec : decodeWord (s.mem.word s.pc.toNat) = .ok (.jp (s.pc.setWidth 12)) := by
    rw [h.word_eq, decodeWord_encode]
  obtain ⟨hrun, -, -⟩ := h
  exact step_of_decodes hrun hpc hdec

/-! ## How an instruction ends (40_cycle.md R83, R87) -/

/-- `t` is `s` halted by an error recorded at `PC`, with no partial effect. -/
def HaltedAtPc (s t : State) : Prop :=
  t.run = .haltedByError ∧ t.err.kind ≠ .none ∧ t.err.pc = s.pc ∧ FrameError s t

/-- From `s` the core halted without effect, or it completed: `RUN` and `ERR` are as they were. -/
def HaltedOrCompleted (s t : State) : Prop :=
  HaltedAtPc s t ∨ (t.run = s.run ∧ t.err = s.err)

theorem State.raise_haltedAtPc (s : State) {kind : ErrKind} (hkind : kind ≠ .none) (op : Option Word)
    (a : Option FaultAddr) : HaltedAtPc s (s.raise kind op a) :=
  ⟨rfl, hkind, rfl, s.raise_frameError kind op a⟩

/-- A data access halts before any effect or completes, if its effect writes neither `RUN` nor `ERR`. -/
theorem State.accessing_haltedOrCompleted (s : State) {t : State} (k : Nat) (hrun : t.run = s.run)
    (herr : t.err = s.err) : HaltedOrCompleted s (s.accessing k t) :=
  s.accessing_prop (HaltedOrCompleted s) t k (fun _ => .inr ⟨hrun, herr⟩)
    (fun _ => .inl (s.raise_haltedAtPc (by decide) _ _))

/-- Every instruction but `LD Vx,K`, which begins the key wait, halts without effect or completes. -/
theorem nextOf_haltedOrCompleted (i : Instr) (s : State) (hwait : ∀ x, i ≠ .ldVxK x) :
    HaltedOrCompleted s (nextOf i s) := by
  cases i
  case ldVxK x => exact absurd rfl (hwait x)
  case ret =>
    exact nextOf_ret_prop (HaltedOrCompleted s) s (.inl (s.raise_haltedAtPc (by decide) _ _))
      (fun _ _ => .inr ⟨rfl, rfl⟩)
  case call nnn =>
    exact nextOf_call_prop (HaltedOrCompleted s) s nnn (.inl (s.raise_haltedAtPc (by decide) _ _))
      (fun _ => .inr ⟨rfl, rfl⟩)
  case drwVxVyN | ldBVx | ldMemVx | ldVxMem => exact s.accessing_haltedOrCompleted _ rfl rfl
  all_goals exact .inr ⟨rfl, rfl⟩

end Sys2Proof.Machine
end

section
/-! The statements about the cycle (40_cycle.md), each from the rules above. -/

namespace Sys2Proof.Machine

/-- Settles O38: `LD Vx,K` begins the key wait, every other instruction halts without effect or completes. -/
theorem fatalErrorsArePrecise : Obligations.FatalErrorsArePrecise := by
  intro i s
  refine ⟨nextOf i s, exec_next i s, ?_⟩
  by_cases hwait : ∃ x, i = .ldVxK x
  · obtain ⟨x, rfl⟩ := hwait
    exact .inr (.inr ⟨rfl, rfl, x, rfl⟩)
  · rcases nextOf_haltedOrCompleted i s (not_exists.1 hwait) with hhalt | hdone
    · exact .inl hhalt
    · exact .inr (.inl hdone)

/-- Settles O40: the word decodes to the jump to `PC`, and that jump writes to `PC` what it holds. -/
theorem jumpToSelfIsAtRest : Obligations.JumpToSelfIsAtRest := by
  intro s h
  have hself : addrOperand (s.pc.setWidth 12) = s.pc := addrOperand_setWidth (Nat.lt_succ_of_lt h.pc_lt)
  rw [h.step_eq, exec_next, nextOf, hself]
  rfl

/-- Settles O33: the word at `PC` is its two bytes, high byte first. -/
theorem stepRunsTheDecodedInstruction : Obligations.StepRunsTheDecodedInstruction :=
  fun _ _ hrun hpc hdec _ => step_of_decodes hrun hpc hdec

/-- Settles O34: the step is the advance alone, and the event is that of the word at `PC`. -/
theorem unknownWordsOnlyAdvance : Obligations.UnknownWordsOnlyAdvance :=
  fun e s hrun hpc hdec => ⟨s.advance, step_of_unknown hrun hpc hdec, rfl, s.advance_frameRegs, ⟨rfl, rfl, rfl⟩,
    (cycleEvent_of_running hrun).trans (unknownOpcodeEvent_error s e hpc hdec)⟩

/-- Settles O36: of the three things a cycle can do, only idling is left to a paused or halted core. -/
theorem idleCyclesChangeNothing : Obligations.IdleCyclesChangeNothing := by
  intro s hidle
  have hrun : s.run ≠ .running := fun h => by simp [h] at hidle
  refine ⟨?_, cycleEvent_of_not_running hrun⟩
  rcases cycle_cases s with ⟨-, hstep⟩ | ⟨h, -⟩ | ⟨h, -⟩
  · exact hstep
  · simp [h] at hidle
  · exact absurd h hrun

end Sys2Proof.Machine
end

section
/-! The rules that the proofs about control flow (41_control_flow.md) lean on: what a transfer of control leaves, where
a skip goes, and which stack entries a push and a pop leave. -/

namespace Sys2Proof.Machine

/-! ## What a transfer leaves (41_control_flow.md R90) -/

/-- A jump leaves all state but `PC`, and draws nothing. -/
theorem State.jump_frame (s : State) (w : Word) : FrameRegs [] s (s.jump w) ∧ SameDraws s (s.jump w) :=
  ⟨⟨fun _ _ => rfl, rfl, fun _ => rfl, fun _ _ => rfl, .of_eq rfl, fun _ => rfl, ⟨rfl, rfl, rfl⟩, rfl⟩, rfl, rfl, rfl⟩

/-- A skip is a jump to one of the two next instructions. -/
theorem State.skipIf_frame (s : State) (c : Bool) : FrameRegs [] s (s.skipIf c) ∧ SameDraws s (s.skipIf c) :=
  s.jump_frame _

/-- A new stack and a new `PC` are the frame of `CALL` and `RET`. -/
theorem State.frameStack_of_stk_pc (s : State) (stk : List Word) (pc : Word) :
    FrameStack s { s with stk := stk, pc := pc } :=
  ⟨fun _ _ => rfl, rfl, fun _ => rfl, fun _ _ => rfl, ⟨fun _ => rfl, ⟨rfl, rfl, rfl⟩, rfl⟩, rfl, rfl, rfl⟩

/-! ## Where a transfer goes (41_control_flow.md R94 to R98) -/

/-- A skip on equality moves `PC` by 4 if the bytes are equal, else by 2. -/
theorem State.skipIf_beq_pc (s : State) (a b : Byte) :
    (s.skipIf (a == b)).pc = if a = b then s.pc + 4#16 else s.pc + 2#16 := by
  by_cases h : a = b <;> simp [h]

/-- A skip on inequality moves `PC` by 2 if the bytes are equal, else by 4. -/
theorem State.skipIf_bne_pc (s : State) (a b : Byte) :
    (s.skipIf (a != b)).pc = if a = b then s.pc + 2#16 else s.pc + 4#16 := by
  by_cases h : a = b <;> simp [h]

/-- A register and a 12-bit address add without wrap: 0xFF + 0xFFF is below 2^16. -/
theorem State.regWide_add_addrOperand_toNat (s : State) (x : RegIdx) (nnn : Addr) :
    (s.regWide x + addrOperand nnn).toNat = (s.reg x).toNat + nnn.toNat := by
  have hreg : (s.reg x).toNat < 256 := (s.reg x).isLt
  have haddr : nnn.toNat < 4096 := nnn.isLt
  rw [BitVec.toNat_add, addrOperand_toNat, State.regWide, BitVec.toNat_setWidth]
  omega

/-! ## Stack entries (10_state.md R14) -/

/-- A push puts its word at `STK[SP]`. -/
theorem State.stkEntry_push_sp (s : State) (w : Word) : (s.push w).stkEntry s.sp = some w := by
  rw [State.stkEntry_push, if_pos rfl]

/-- A push leaves the live entries. -/
theorem State.stkEntry_push_of_lt (s : State) (w : Word) {j : Nat} (hj : j < s.sp) :
    (s.push w).stkEntry j = s.stkEntry j := by
  rw [State.stkEntry_push, if_neg (Nat.ne_of_lt hj)]

/-- A pop leaves the entries that stay live. -/
theorem State.stkEntry_pop_of_lt (s : State) {j : Nat} (hj : j < s.pop.sp) : s.pop.stkEntry j = s.stkEntry j := by
  rw [State.sp_pop] at hj
  rw [State.stkEntry_pop, if_neg (by omega)]

/-- The entries are the whole stack: states that agree on them have the same list of return addresses. -/
theorem SameStack.stk_eq {s t : State} (h : SameStack s t) : t.stk = s.stk := by
  obtain ⟨-, hentry⟩ := h
  exact List.reverse_injective (List.ext_getElem? hentry)

/-! ## CALL and RET as outcomes (41_control_flow.md R91, R93) -/

theorem exec_ret_cons {s : State} {e : Word} {rest : List Word} (h : s.stk = e :: rest) :
    exec .ret s = .next (s.pop.jump (e + 2#16)) := by
  rw [exec_next, nextOf_ret_cons h]

theorem exec_call_of_lt {s : State} (nnn : Addr) (h : s.sp < Params.stackDepth) :
    exec (.call nnn) s = .next ((s.push s.pc).jump (addrOperand nnn)) := by
  rw [exec_next, nextOf_call_of_lt nnn h]

end Sys2Proof.Machine
end

section
/-! The statements about control flow (41_control_flow.md), each from the rules above. -/

namespace Sys2Proof.Machine

/-- Settles O53: equal entries are an equal stack, so RET finds the pushed `PC` on top of the caller's stack. -/
theorem callThenRetComesBack : Obligations.CallThenRetComesBack := by
  intro nnn s hroom
  refine ⟨_, exec_call_of_lt nnn hroom, fun u hu => ?_⟩
  have hstk : u.stk = s.pc :: s.stk := hu.stk_eq
  have hpop : u.pop.stk = s.stk := congrArg List.tail hstk
  exact ⟨u.pop.jump (s.pc + 2#16), exec_ret_cons hstk, rfl, .of_eq hpop⟩

/-- Settles O1: a live stack has a top entry, and RET pops it; an empty one underflows. -/
theorem retReturnsPastTheCall : Obligations.RetReturnsPastTheCall := by
  intro s
  refine ⟨fun hlive => ?_, fun hempty => ?_⟩
  · obtain ⟨e, rest, hstk⟩ := List.exists_cons_of_length_pos hlive
    exact ⟨s.pop.jump (e + 2#16), e, exec_ret_cons hstk, s.stkEntry_top e rest hstk, rfl, s.sp_pop,
      fun _ hj => s.stkEntry_pop_of_lt hj, s.frameStack_of_stk_pc _ _⟩
  · have hnil : s.stk = [] := List.eq_nil_of_length_eq_zero hempty
    exact ⟨s.raiseStack .stackUnderflow, by rw [exec_next, nextOf_ret_nil hnil], rfl, rfl, s.raise_frameError _ _ _⟩

/-- Settles O2: the zero extension of the address is the same number. -/
theorem jpGoesToItsAddress : Obligations.JpGoesToItsAddress :=
  fun nnn s => ⟨s.jump (addrOperand nnn), exec_next _ s, addrOperand_toNat nnn, s.jump_frame _⟩

/-- Settles O3: below the depth CALL pushes and jumps, at the depth it only raises. -/
theorem callPushesItsOwnAddress : Obligations.CallPushesItsOwnAddress := by
  intro nnn s
  refine ⟨fun hroom => ?_, fun hfull => ?_⟩
  · exact ⟨(s.push s.pc).jump (addrOperand nnn), exec_call_of_lt nnn hroom, addrOperand_toNat nnn, s.sp_push s.pc,
      s.stkEntry_push_sp s.pc, fun _ hj => s.stkEntry_push_of_lt s.pc hj, s.frameStack_of_stk_pc _ _⟩
  · exact ⟨s.raiseStack .stackOverflow, by rw [exec_next, nextOf_call_of_not_lt nnn (Nat.not_lt_of_ge hfull.ge)],
      rfl, rfl, s.raise_frameError _ _ _⟩

/-- Settles O4: SE skips on equality and SNE on inequality, and a skip writes `PC` only. -/
theorem immediateSkips : Obligations.ImmediateSkips :=
  fun x kk s =>
    ⟨⟨_, exec_next (.seVxKk x kk) s, s.skipIf_beq_pc (s.reg x) kk, s.skipIf_frame _⟩,
      ⟨_, exec_next (.sneVxKk x kk) s, s.skipIf_bne_pc (s.reg x) kk, s.skipIf_frame _⟩⟩

/-- Settles O5: as for O4, with `V[y]` in place of the immediate. -/
theorem registerSkips : Obligations.RegisterSkips :=
  fun x y s =>
    ⟨⟨_, exec_next (.seVxVy x y) s, s.skipIf_beq_pc (s.reg x) (s.reg y), s.skipIf_frame _⟩,
      ⟨_, exec_next (.sneVxVy x y) s, s.skipIf_bne_pc (s.reg x) (s.reg y), s.skipIf_frame _⟩⟩

/-- Settles O6: the sum of a byte and a 12-bit address fits in `PC`. -/
theorem jpV0AddsWithoutReduction : Obligations.JpV0AddsWithoutReduction :=
  fun nnn s => ⟨s.jump (s.regWide 0#4 + addrOperand nnn), exec_next _ s, s.regWide_add_addrOperand_toNat 0#4 nnn,
    s.jump_frame _⟩

end Sys2Proof.Machine
end

section
/-! The rules that the proofs about loads and arithmetic (42_load_and_alu.md) lean on: what a write to registers leaves,
the result and the flag of each operation as numbers, and the outcome of an instruction that writes a register, without
and with a flag. -/

namespace Sys2Proof.Machine

/-! ## What a write to registers leaves (42_load_and_alu.md R110) -/

/-- New registers and a new `PC` are the frame of a load or an arithmetic instruction, if the registers outside `w` keep
their values. -/
theorem State.frameRegs_of_v_pc {w : List RegIdx} (s : State) (v : Vector Byte 16) (pc : Word)
    (hregs : SameRegsBut w s { s with v := v, pc := pc }) :
    FrameRegs w s { s with v := v, pc := pc } ∧ SameDraws s { s with v := v, pc := pc } :=
  ⟨⟨hregs, rfl, fun _ => rfl, fun _ _ => rfl, .of_eq rfl, fun _ => rfl, ⟨rfl, rfl, rfl⟩, rfl⟩, rfl, rfl, rfl⟩

theorem State.setReg_advance_frame (s : State) (x : RegIdx) (b : Byte) :
    FrameRegs [x] s (s.setReg x b).advance ∧ SameDraws s (s.setReg x b).advance :=
  s.frameRegs_of_v_pc _ _ fun r hr => s.reg_setReg_ne x r b (List.ne_of_not_mem_cons hr)

theorem State.setResultFlag_advance_frame (s : State) (x : RegIdx) (b : Byte) (c : Bool) :
    FrameRegs [x, vfIdx] s (s.setResultFlag x b c).advance ∧ SameDraws s (s.setResultFlag x b c).advance := by
  refine s.frameRegs_of_v_pc _ _ fun r hr => ?_
  obtain ⟨hx, hf⟩ : r ≠ x ∧ r ≠ vfIdx := by simpa using hr
  exact s.reg_setResultFlag_ne b c hx hf

/-- A result stands in its destination, unless the flag is written over it. -/
theorem State.reg_setResultFlag_dest (s : State) {x : RegIdx} (b : Byte) (c : Bool) (hx : x ≠ vfIdx) :
    (s.setResultFlag x b c).reg x = b := by
  rw [State.reg_setResultFlag, if_neg hx, if_pos rfl]

/-! ## Results as numbers (42_load_and_alu.md R118 to R121) -/

/-- Byte subtraction, with the modulus added to the minuend so that the difference stays natural. -/
theorem byte_sub_toNat (a b : Byte) : (a - b).toNat = (a.toNat + 256 - b.toNat) % 256 := by
  have hb : b.toNat < 256 := b.isLt
  rw [BitVec.toNat_sub]
  omega

theorem byte_shiftRight_one_toNat (a : Byte) : (a >>> 1).toNat = a.toNat / 2 := by
  rw [BitVec.toNat_ushiftRight, Nat.shiftRight_one]

theorem byte_shiftLeft_one_toNat (a : Byte) : (a <<< 1).toNat = 2 * a.toNat % 256 := by
  rw [BitVec.toNat_shiftLeft, Nat.shiftLeft_eq, Nat.mul_comm]

/-! ## Flags as numbers (42_load_and_alu.md R117 to R121) -/

theorem flagByte_carryOut_toNat (a b : Byte) :
    (flagByte (carryOut a b)).toNat = if 0xFF < a.toNat + b.toNat then 1 else 0 := by
  simp [flagByte_toNat, carryOut]

theorem flagByte_greater_toNat (a b : Byte) :
    (flagByte (greater a b)).toNat = if b.toNat < a.toNat then 1 else 0 := by
  simp [flagByte_toNat, greater]

/-- The flag of a bit is the bit. -/
theorem flagByte_getLsbD_toNat (a : Byte) (j : Nat) : (flagByte (a.getLsbD j)).toNat = a.toNat / 2 ^ j % 2 := by
  rw [flagByte_toNat, ← BitVec.testBit_toNat, Nat.testBit_eq_decide_div_mod_eq]
  rcases Nat.mod_two_eq_zero_or_one (a.toNat / 2 ^ j) with h | h <;> simp [h]

theorem flagByte_lowBit_toNat (a : Byte) : (flagByte (lowBit a)).toNat = a.toNat % 2 := by
  rw [lowBit, flagByte_getLsbD_toNat, Nat.pow_zero, Nat.div_one]

/-- What is left of a byte above its bit 7 is that bit alone. -/
theorem flagByte_highBit_toNat (a : Byte) : (flagByte (highBit a)).toNat = a.toNat / 128 := by
  have hbit : a.toNat / 128 < 2 := Nat.div_lt_of_lt_mul a.isLt
  rw [highBit, flagByte_getLsbD_toNat]
  exact Nat.mod_eq_of_lt hbit

/-! ## The outcome of an instruction -/

/-- An instruction that writes one register and no flag. -/
theorem exec_of_setReg {i : Instr} {s : State} {x : RegIdx} {b : Byte} (hi : nextOf i s = (s.setReg x b).advance) :
    ∃ t, exec i s = .next t ∧ t.reg x = b ∧ t.pc = s.pc + 2#16 ∧ FrameRegs [x] s t ∧ SameDraws s t :=
  ⟨(s.setReg x b).advance, (exec_next i s).trans (congrArg _ hi), s.reg_setReg_same x b, rfl,
    s.setReg_advance_frame x b⟩

/-- The same, with the byte written said bit by bit. -/
theorem exec_of_setReg_bits {i : Instr} {s : State} {x : RegIdx} {b : Byte} {bit : Nat → Bool}
    (hi : nextOf i s = (s.setReg x b).advance) (hbit : ∀ j, b.getLsbD j = bit j) :
    ∃ t, exec i s = .next t ∧ (∀ j, (t.reg x).getLsbD j = bit j) ∧ t.pc = s.pc + 2#16 ∧ FrameRegs [x] s t ∧
      SameDraws s t := by
  obtain ⟨t, hexec, hx, hrest⟩ := exec_of_setReg hi
  exact ⟨t, hexec, hx ▸ hbit, hrest⟩

/-- An instruction that writes a result and then its flag: the result stands unless the destination is `VF`, the flag
always does. -/
theorem exec_of_setResultFlag {i : Instr} {s : State} {x : RegIdx} {b : Byte} {c : Bool} {result flag : Nat}
    (hi : nextOf i s = (s.setResultFlag x b c).advance) (hresult : b.toNat = result)
    (hflag : (flagByte c).toNat = flag) :
    ∃ t, exec i s = .next t ∧ (x ≠ 15#4 → (t.reg x).toNat = result) ∧ (t.reg 15#4).toNat = flag ∧
      t.pc = s.pc + 2#16 ∧ FrameRegs [x, 15#4] s t ∧ SameDraws s t := by
  refine ⟨(s.setResultFlag x b c).advance, (exec_next i s).trans (congrArg _ hi), fun hx => ?_, ?_, rfl,
    s.setResultFlag_advance_frame x b c⟩
  · rw [State.advance_reg, s.reg_setResultFlag_dest b c hx, hresult]
  · rw [State.advance_reg, show (15#4 : RegIdx) = vfIdx from rfl, s.reg_setResultFlag_vf x b c, hflag]

end Sys2Proof.Machine
end

section
/-! The statements about loads, arithmetic, logic, shifts and random bytes (42_load_and_alu.md), each from the rules
above. -/

namespace Sys2Proof.Machine

/-- Settles O10: the sum and its carry as numbers. -/
theorem addSetsCarry : Obligations.AddSetsCarry :=
  fun x y s => exec_of_setResultFlag rfl (BitVec.toNat_add (s.reg x) (s.reg y))
    (flagByte_carryOut_toNat (s.reg x) (s.reg y))

/-- Settles O11: the difference, and the flag of the strict comparison. -/
theorem subSetsStrictGreater : Obligations.SubSetsStrictGreater :=
  fun x y s => exec_of_setResultFlag rfl (byte_sub_toNat (s.reg x) (s.reg y))
    (flagByte_greater_toNat (s.reg x) (s.reg y))

/-- Settles O12: the shift halves, and the flag is the remainder. -/
theorem shrGivesLowBit : Obligations.ShrGivesLowBit :=
  fun x s => exec_of_setResultFlag rfl (byte_shiftRight_one_toNat (s.reg x)) (flagByte_lowBit_toNat (s.reg x))

/-- Settles O13: the difference is SUB's with its operands exchanged, the flag is SUB's as it is. -/
theorem subnKeepsSubsTest : Obligations.SubnKeepsSubsTest :=
  fun x y s => exec_of_setResultFlag rfl (byte_sub_toNat (s.reg y) (s.reg x))
    (flagByte_greater_toNat (s.reg x) (s.reg y))

/-- Settles O14: the shift doubles modulo 256, and the flag is the bit that leaves the byte. -/
theorem shlGivesHighBit : Obligations.ShlGivesHighBit :=
  fun x s => exec_of_setResultFlag rfl (byte_shiftLeft_one_toNat (s.reg x)) (flagByte_highBit_toNat (s.reg x))

/-- Settles O7: both loads are one register write. -/
theorem plainLoadsWriteTheirDestination : Obligations.PlainLoadsWriteTheirDestination :=
  fun _ _ _ _ => ⟨exec_of_setReg rfl, exec_of_setReg rfl⟩

/-- Settles O8: one register write, of a sum modulo 256. -/
theorem addImmediateWrapsWithoutFlag : Obligations.AddImmediateWrapsWithoutFlag := by
  intro x kk s
  obtain ⟨t, hexec, hx, hrest⟩ := exec_of_setReg (i := .addVxKk x kk) (s := s) rfl
  exact ⟨t, hexec, hx ▸ BitVec.toNat_add (s.reg x) kk, hrest⟩

/-- Settles O9: each is one register write, of a byte combined bit by bit. -/
theorem logicCombinesBitByBit : Obligations.LogicCombinesBitByBit :=
  fun _ _ _ =>
    ⟨exec_of_setReg_bits rfl fun _ => BitVec.getLsbD_or, exec_of_setReg_bits rfl fun _ => BitVec.getLsbD_and,
      exec_of_setReg_bits rfl fun _ => BitVec.getLsbD_xor⟩

/-- Settles O15: the draw is counted and then written, masked; a bit that the mask lacks is 0. -/
theorem rndMasksOneDraw : Obligations.RndMasksOneDraw := by
  intro x kk s
  have hx : (nextOf (.rndVxKk x kk) s).reg x = Config.rand s.randDraws &&& kk := State.reg_setReg_same _ x _
  refine ⟨nextOf (.rndVxKk x kk) s, exec_next _ s, hx, fun j hj => ?_, rfl,
    (State.setReg_advance_frame { s with randDraws := s.randDraws + 1 } x _).1, rfl, rfl, rfl⟩
  rw [hx, BitVec.getLsbD_and, hj, Bool.and_false]

end Sys2Proof.Machine
end

section
/-! The rules that the proofs about the index register and memory transfers (43_index_and_memory.md) lean on: new
values of `I` as numbers, what a write of `I` and a store leave, what a store's bytes read back as, and the outcome of
an instruction that writes `I`, stores, or loads registers. -/

namespace Sys2Proof.Machine

/-! ## Values of the index register (43_index_and_memory.md R131, R132) -/

/-- A register added to `I` wraps at 16 bits. -/
theorem State.i_add_regWide_toNat (s : State) (x : RegIdx) :
    (s.i + s.regWide x).toNat = (s.i.toNat + (s.reg x).toNat) % 65536 := by
  have hwide : (s.regWide x).toNat = (s.reg x).toNat := BitVec.toNat_setWidth_of_le (by decide)
  rw [BitVec.toNat_add, hwide]

/-- Five times a byte is at most 0x4FB: the glyph address does not wrap, whatever the byte. -/
theorem glyphAddr_toNat (v : Byte) : (glyphAddr v).toNat = v.toNat * 5 := by
  have hwide : (v.setWidth 16).toNat = v.toNat := BitVec.toNat_setWidth_of_le (by decide)
  have hv : v.toNat < 256 := v.isLt
  rw [glyphAddr, BitVec.toNat_mul, hwide]
  exact Nat.mod_eq_of_lt (show v.toNat * 5 < 65536 by omega)

/-! ## Bytes of a store (20_memory.md R49) -/

/-- The `j`-th byte of a store is read back at the `j`-th address. -/
theorem Memory.read_writeBytes_of_getElem? (m : Memory) (a : Nat) {bytes : List Byte} {j : Nat} {b : Byte}
    (hj : bytes[j]? = some b) : (m.writeBytes a bytes).read (a + j) = b := by
  have hlt : j < bytes.length := (List.getElem?_eq_some_iff.mp hj).1
  rw [Memory.read_writeBytes, if_pos (by omega), Nat.add_sub_cancel_left, List.getD_eq_getElem?_getD, hj,
    Option.getD_some]

/-- A store leaves the bytes outside its range. -/
theorem Memory.read_writeBytes_outside (m : Memory) {a b : Nat} {bytes : List Byte}
    (hb : b < a ∨ a + bytes.length ≤ b) : (m.writeBytes a bytes).read b = m.read b := by
  rw [Memory.read_writeBytes, if_neg (by omega)]

/-- A store of a byte's decimal digits leaves the hundreds, the tens and the ones, each below 256 and so kept whole
(43_index_and_memory.md R133). -/
theorem Memory.read_writeBytes_bcdDigits (m : Memory) (a : Nat) (v : Byte) :
    ((m.writeBytes a (bcdDigits v)).read a).toNat = v.toNat / 100 ∧
      ((m.writeBytes a (bcdDigits v)).read (a + 1)).toNat = v.toNat / 10 % 10 ∧
      ((m.writeBytes a (bcdDigits v)).read (a + 2)).toNat = v.toNat % 10 := by
  have hv : v.toNat < 256 := v.isLt
  have hread {j n : Nat} (hj : (bcdDigits v)[j]? = some (BitVec.ofNat 8 n)) (hn : n < 256) :
      ((m.writeBytes a (bcdDigits v)).read (a + j)).toNat = n := by
    rw [m.read_writeBytes_of_getElem? a hj, BitVec.toNat_ofNat]
    exact Nat.mod_eq_of_lt hn
  exact ⟨hread (j := 0) rfl (by omega), hread rfl (by omega), hread rfl (by omega)⟩

/-! ## What a write of `I` and a store leave (43_index_and_memory.md R136) -/

theorem State.setI_advance_frame (s : State) (w : Word) : FrameIndex s (s.setI w).advance :=
  ⟨fun _ _ => rfl, fun _ => rfl, fun _ _ => rfl, .of_eq rfl, ⟨fun _ => rfl, ⟨rfl, rfl, rfl⟩, rfl⟩, rfl, rfl, rfl⟩

theorem State.writeBytes_advance_frame (s : State) (a : Nat) (bytes : List Byte) :
    FrameStore a bytes.length s ({ s with mem := s.mem.writeBytes a bytes } : State).advance :=
  ⟨fun _ _ => rfl, rfl, fun _ hb => s.mem.read_writeBytes_outside hb, fun _ _ => rfl, .of_eq rfl,
    ⟨fun _ => rfl, ⟨rfl, rfl, rfl⟩, rfl⟩, rfl, rfl, rfl⟩

/-! ## The outcome of an instruction -/

/-- An instruction that writes `I` and no flag, with the new `I` said as a number. -/
theorem exec_of_setI {i : Instr} {s : State} {w : Word} {n : Nat} (hi : nextOf i s = (s.setI w).advance)
    (hw : w.toNat = n) :
    ∃ t, exec i s = .next t ∧ t.i.toNat = n ∧ t.pc = s.pc + 2#16 ∧ FrameIndex s t :=
  ⟨(s.setI w).advance, (exec_next i s).trans (congrArg _ hi), hw, rfl, s.setI_advance_frame w⟩

/-- An instruction that stores bytes whose range fits leaves them at `I` and keeps the rest. -/
theorem exec_of_storeAtI {i : Instr} {s : State} {bytes : List Byte} {k : Nat} (hi : nextOf i s = s.storeAtI bytes)
    (hlen : bytes.length = k) (hfit : s.i.toNat + k ≤ 0x1000) :
    ∃ t, exec i s = .next t ∧ t.mem = s.mem.writeBytes s.i.toNat bytes ∧ t.pc = s.pc + 2#16 ∧
      FrameStore s.i.toNat k s t := by
  subst hlen
  refine ⟨({ s with mem := s.mem.writeBytes s.i.toNat bytes } : State).advance, ?_, rfl, rfl,
    s.writeBytes_advance_frame _ bytes⟩
  rw [exec_next, hi, s.storeAtI_ok bytes hfit]

/-- A load of registers whose range fits takes effect. -/
theorem exec_ldVxMem_of_fits {s : State} {x : RegIdx} (hfit : s.i.toNat + x.toNat ≤ 0xFFF) :
    exec (.ldVxMem x) s =
      .next ({ s with v := loadRegs s.v 0 (s.mem.readBytes s.i.toNat (x.toNat + 1)) } : State).advance := by
  have hrange : RangeOk s (x.toNat + 1) := .inr (by omega)
  exact (exec_next _ s).trans (congrArg _ (s.accessing_ok _ _ hrange))

end Sys2Proof.Machine
end

section
/-! The statements about the index register and memory transfers (43_index_and_memory.md), each from the rules above. -/

namespace Sys2Proof.Machine

/-- Settles O19: the three bytes stored are the digits; where they do not fit, the access raises before it stores. -/
theorem ldBStoresThreeDigits : Obligations.LdBStoresThreeDigits := by
  intro x s
  refine ⟨fun hfit => ?_, fun hout => ?_⟩
  · obtain ⟨t, hexec, hmem, hpc, hframe⟩ :=
      exec_of_storeAtI (i := .ldBVx x) (s := s) rfl (bcdDigits_length (s.reg x)) (by omega)
    obtain ⟨hhundreds, htens, hones⟩ := hmem ▸ s.mem.read_writeBytes_bcdDigits s.i.toNat (s.reg x)
    exact ⟨t, hexec, hhundreds, htens, hones, hpc, hframe⟩
  · obtain ⟨t, hexec, hrun, hkind, -, -, haddr, hframe⟩ :=
      exec_raised_of_accessing (i := .ldBVx x) (s := s) (k := 3) rfl (by decide) (by omega)
    exact ⟨t, hexec, hrun, hkind, haddr _ rfl, hframe⟩

/-- Settles O20: the `r`-th byte of the store is `V[r]`. -/
theorem ldMemStoresTheRegisters : Obligations.LdMemStoresTheRegisters := by
  intro x s hfit
  obtain ⟨t, hexec, hmem, hrest⟩ :=
    exec_of_storeAtI (i := .ldMemVx x) (s := s) rfl (s.regsUpTo_length x) (by omega)
  exact ⟨t, hexec, fun r hr => hmem ▸ s.read_writeBytes_regsUpTo x r _ hr, hrest⟩

/-- Settles O21: of the `x + 1` bytes read, register `r` gets the `r`-th if there is one. -/
theorem ldVxMemLoadsTheRegisters : Obligations.LdVxMemLoadsTheRegisters := by
  intro x s hfit
  refine ⟨_, exec_ldVxMem_of_fits hfit, fun r => ?_, rfl, rfl, fun _ => rfl, fun _ _ => rfl, .of_eq rfl,
    ⟨fun _ => rfl, ⟨rfl, rfl, rfl⟩, rfl⟩, rfl, rfl, rfl⟩
  rw [State.advance_reg, s.reg_loadRegs]
  simp only [Nat.lt_succ_iff]

/-- Settles O16: the zero extension of the address is the same number. -/
theorem ldILoadsTheAddress : Obligations.LdILoadsTheAddress :=
  fun nnn _ => exec_of_setI rfl (addrOperand_toNat nnn)

/-- Settles O17: the sum is modulo 2^16, and the write of `I` touches no register. -/
theorem addIWrapsWithoutFlag : Obligations.AddIWrapsWithoutFlag :=
  fun x s => exec_of_setI rfl (s.i_add_regWide_toNat x)

/-- Settles O18: five times the whole byte fits in `I`. -/
theorem ldFPointsAtTheGlyph : Obligations.LdFPointsAtTheGlyph :=
  fun x s => exec_of_setI rfl (glyphAddr_toNat (s.reg x))

end Sys2Proof.Machine
end

section
/-! The rules that the proofs about the display (44_display.md) lean on: what a new plane leaves, the outcome and the
flag of a draw whose sprite fits, and what a second draw at one origin sees. -/

namespace Sys2Proof.Machine

/-! ## What a new plane leaves (44_display.md R141, R142) -/

/-- A new plane, new registers and a new `PC` are the frame of `CLS` and `DRW`, if the registers outside `w` keep their
values. -/
theorem State.framePlane_of_fb_v_pc {w : List RegIdx} (s : State) (fb : Plane) (v : Vector Byte 16) (pc : Word)
    (hregs : SameRegsBut w s { s with fb := fb, v := v, pc := pc }) :
    FramePlane w s { s with fb := fb, v := v, pc := pc } :=
  ⟨hregs, rfl, fun _ => rfl, .of_eq rfl, ⟨fun _ => rfl, ⟨rfl, rfl, rfl⟩, rfl⟩, rfl, rfl, rfl⟩

/-! ## One draw (44_display.md R142 to R144) -/

/-- The state that `DRW` leaves when its sprite lies inside memory. -/
def State.drawn (s : State) (x y : RegIdx) (n : Nibble) : State :=
  (({ s with fb := (s.spriteDraw x y n).1 } : State).setReg vfIdx (flagByte (s.spriteDraw x y n).2)).advance

theorem exec_drw_of_rangeOk {s : State} {n : Nibble} (x y : RegIdx) (hrange : RangeOk s n.toNat) :
    exec (.drwVxVyN x y n) s = .next (s.drawn x y n) :=
  (exec_next _ s).trans (congrArg _ (s.accessing_ok _ _ hrange))

/-- Inside the grid no pixel is clipped. -/
theorem State.drawn_cell (s : State) (x y : RegIdx) (n : Nibble) {row col : Nat} (hrow : row < 32) (hcol : col < 64) :
    (s.drawn x y n).fb.cell row col = (s.fb.cell row col ^^ s.spriteBit x y n row col) := by
  refine (s.spriteDraw_cell x y n row col).trans ?_
  rw [decide_eq_true hrow, decide_eq_true hcol, Bool.true_and, Bool.true_and]

theorem State.drawn_vf (s : State) (x y : RegIdx) (n : Nibble) :
    (s.drawn x y n).reg vfIdx = flagByte (s.spriteDraw x y n).2 :=
  State.reg_setReg_same _ vfIdx _

theorem State.drawn_vf_of_collides {s : State} {x y : RegIdx} {n : Nibble} (h : s.collides x y n) :
    (s.drawn x y n).reg vfIdx = 1#8 := by
  rw [s.drawn_vf, (s.spriteDraw_collides x y n).2 h]
  rfl

theorem State.drawn_vf_of_not_collides {s : State} {x y : RegIdx} {n : Nibble} (h : ¬ s.collides x y n) :
    (s.drawn x y n).reg vfIdx = 0#8 := by
  rw [s.drawn_vf, Bool.eq_false_iff.2 (mt (s.spriteDraw_collides x y n).1 h)]
  rfl

theorem State.drawn_vf_eq_one_iff (s : State) (x y : RegIdx) (n : Nibble) :
    (s.drawn x y n).reg vfIdx = 1#8 ↔ s.collides x y n := by
  refine ⟨fun hvf => ?_, State.drawn_vf_of_collides⟩
  by_contra hmiss
  rw [State.drawn_vf_of_not_collides hmiss] at hvf
  exact absurd hvf (by decide)

theorem State.drawn_frame (s : State) (x y : RegIdx) (n : Nibble) : FramePlane [vfIdx] s (s.drawn x y n) :=
  s.framePlane_of_fb_v_pc _ _ _ fun r hr => s.reg_setReg_ne vfIdx r _ (List.ne_of_not_mem_cons hr)

/-! ## A second draw at one origin (95_test_vectors.md E5) -/

/-- `I` stays, so a sprite that lies inside memory still does. -/
theorem FramePlane.rangeOk {w : List RegIdx} {s t : State} {k : Nat} (h : FramePlane w s t) (hrange : RangeOk s k) :
    RangeOk t k := by
  obtain ⟨-, hi, -⟩ := h
  rwa [RangeOk, hi]

/-- The sprite is read through `I`, memory and two registers, so it stays if these two are not written. -/
theorem FramePlane.spriteBit_eq {w : List RegIdx} {s t : State} {x y : RegIdx} (h : FramePlane w s t) (hx : x ∉ w)
    (hy : y ∉ w) (n : Nibble) (row col : Nat) : t.spriteBit x y n row col = s.spriteBit x y n row col := by
  obtain ⟨hregs, hi, hmem, -⟩ := h
  simp only [State.spriteBit, hregs x hx, hregs y hy, hi, hmem _]

/-- On a plane that shows the sprite and nothing else, a draw collides if any of the sprite shows. -/
theorem State.collides_iff_of_cell_eq_spriteBit {s : State} {x y : RegIdx} {n : Nibble}
    (h : ∀ row col, row < 32 → col < 64 → s.fb.cell row col = s.spriteBit x y n row col) :
    s.collides x y n ↔ ∃ row col, row < 32 ∧ col < 64 ∧ s.spriteBit x y n row col = true := by
  refine exists₂_congr fun row col => and_congr_right fun hrow => and_congr_right fun hcol => ?_
  rw [h row col hrow hcol, and_self]

section
variable {x y : RegIdx} (s : State) (n : Nibble) (hx : x ≠ vfIdx) (hy : y ≠ vfIdx)
include hx hy

/-- The first draw writes no operand of the second, so both draw one sprite. -/
theorem State.drawn_spriteBit (row col : Nat) :
    (s.drawn x y n).spriteBit x y n row col = s.spriteBit x y n row col :=
  (s.drawn_frame x y n).spriteBit_eq (by simpa using hx) (by simpa using hy) n row col

/-- One sprite XORed in twice cancels. -/
theorem State.drawn_drawn_samePlane : SamePlane s ((s.drawn x y n).drawn x y n) := by
  intro row col
  by_cases hgrid : row < 32 ∧ col < 64
  · obtain ⟨hrow, hcol⟩ := hgrid
    rw [State.drawn_cell _ x y n hrow hcol, State.drawn_cell _ x y n hrow hcol, s.drawn_spriteBit n hx hy,
      Bool.xor_assoc, Bool.xor_self, Bool.xor_false]
  · rw [Plane.cell_outside _ _ _ hgrid, Plane.cell_outside _ _ _ hgrid]

/-- From an empty plane the first draw leaves the sprite alone, so the second collides if any of it shows. -/
theorem State.drawn_collides_of_empty (hempty : ∀ row col, s.fb.cell row col = false) :
    (s.drawn x y n).collides x y n ↔ ∃ row col, row < 32 ∧ col < 64 ∧ s.spriteBit x y n row col = true := by
  have hbit := s.drawn_spriteBit n hx hy
  have hcell (row col : Nat) (hrow : row < 32) (hcol : col < 64) :
      (s.drawn x y n).fb.cell row col = (s.drawn x y n).spriteBit x y n row col := by
    rw [s.drawn_cell x y n hrow hcol, hempty, Bool.false_xor, hbit]
  simpa only [hbit] using State.collides_iff_of_cell_eq_spriteBit hcell

end

end Sys2Proof.Machine
end

section
/-! The statements about the display (44_display.md), each from the rules above. -/

namespace Sys2Proof.Machine

/-- Settles O26: the sprite engine's cells and collision are those of the state `DRW` leaves. -/
theorem drwXorsAndReportsCollision : Obligations.DrwXorsAndReportsCollision :=
  fun x y n s hrange =>
    ⟨s.drawn x y n, exec_drw_of_rangeOk x y hrange, fun _ _ hrow hcol => s.drawn_cell x y n hrow hcol,
      State.drawn_vf_of_collides, State.drawn_vf_of_not_collides, rfl, s.drawn_frame x y n⟩

/-- Settles O27: both draws see one sprite, so the second undoes the first and collides where the first drew. -/
theorem drawingTwiceRestoresThePlane : Obligations.DrawingTwiceRestoresThePlane := by
  intro x y n s hx hy hrange
  have hrange' : RangeOk (s.drawn x y n) n.toNat := (s.drawn_frame x y n).rangeOk hrange
  exact ⟨_, _, exec_drw_of_rangeOk x y hrange, exec_drw_of_rangeOk x y hrange', s.drawn_drawn_samePlane n hx hy,
    fun hempty => (State.drawn_vf_eq_one_iff _ x y n).trans (s.drawn_collides_of_empty n hx hy hempty)⟩

/-- Settles O25: every cell of a cleared plane is 0, and `CLS` writes the plane and `PC` only. -/
theorem clsZeroesTheDisplay : Obligations.ClsZeroesTheDisplay :=
  fun s => ⟨({ s with fb := Plane.clear } : State).advance, exec_next .cls s, Plane.cell_clear, rfl,
    s.framePlane_of_fb_v_pc _ _ _ fun _ _ => rfl⟩

end Sys2Proof.Machine
end

section
/-! The rules that the proofs about key input and the timer stubs (45_input_and_timers.md) lean on: where a skip on a
condition goes, what a cycle of the key wait is, how a poll ends, and what the end of a wait leaves. -/

namespace Sys2Proof.Machine

/-! ## Key skips (45_input_and_timers.md R150, R151) -/

theorem State.skipIf_pc_eq_ite (s : State) (c : Bool) :
    (s.skipIf c).pc = if c = true then s.pc + 4#16 else s.pc + 2#16 :=
  apply_ite (s.pc + ·) (c = true) 4#16 2#16

theorem State.skipIf_not_pc_eq_ite (s : State) (c : Bool) :
    (s.skipIf (!c)).pc = if c = true then s.pc + 2#16 else s.pc + 4#16 := by
  cases c <;> rfl

/-! ## The key wait (45_input_and_timers.md R154) -/

/-- A cycle of a waiting core is a poll: nothing is fetched. -/
theorem step_of_waitingForKey {s : State} (hrun : s.run = .waitingForKey) : step s = .next (keyWaitPoll s) := by
  rw [step, cycle, hrun]

theorem keyWaitPoll_of_lowestKey_eq_none {s : State} (h : s.lowestKey = none) : keyWaitPoll s = s := by
  rw [keyWaitPoll, h]

theorem keyWaitPoll_of_lowestKey_eq_some {s : State} {k : Nat} (h : s.lowestKey = some k) :
    keyWaitPoll s = ({ s with run := .running } : State).setReg s.kx (BitVec.ofNat 8 k) := by
  rw [keyWaitPoll, h]

/-- A code above 15 names no key, so it is not down. -/
theorem State.lt_of_key {s : State} {k : Nat} (h : s.key k = true) : k < 16 := by
  by_contra hk
  rw [s.key_outside k (Nat.le_of_not_lt hk)] at h
  cases h

/-- The code of a key that is down fits in a register. -/
theorem State.key_code_toNat {s : State} {k : Nat} (h : s.key k = true) : (BitVec.ofNat 8 k).toNat = k := by
  rw [BitVec.toNat_ofNat]
  exact Nat.mod_eq_of_lt ((State.lt_of_key h).trans (by decide))

end Sys2Proof.Machine
end

section
/-! The statements about key input and the timer stubs (45_input_and_timers.md), each from the rules above. -/

namespace Sys2Proof.Machine

/-- Settles O30: a waiting core polls; the poll finds no key, or the lowest one, whose code it loads. -/
theorem keyWaitEndsWithTheLowestKey : Obligations.KeyWaitEndsWithTheLowestKey := by
  intro s hrun
  refine ⟨fun hnone => ?_, fun k hdown hlowest => ?_⟩
  · rw [step_of_waitingForKey hrun, keyWaitPoll_of_lowestKey_eq_none (s.lowestKey_none.2 hnone)]
  · have hk : s.lowestKey = some k := (s.lowestKey_some k).2 ⟨hdown, hlowest⟩
    refine ⟨({ s with run := .running } : State).setReg s.kx (BitVec.ofNat 8 k), ?_, ?_, rfl, rfl, fun r hr => ?_, rfl,
      fun _ => rfl, fun _ _ => rfl, .of_eq rfl, fun _ => rfl, rfl, rfl, rfl, rfl, rfl, rfl⟩
    · rw [step_of_waitingForKey hrun, keyWaitPoll_of_lowestKey_eq_some hk]
    · rw [State.reg_setReg_same, State.key_code_toNat hdown]
    · exact State.reg_setReg_ne _ s.kx r _ (List.ne_of_not_mem_cons hr)

/-- Settles O28: `SKP` skips on the tested key and `SKNP` on its negation, and a skip writes `PC` only. -/
theorem keySkipsTestTheLowNibble : Obligations.KeySkipsTestTheLowNibble :=
  fun x s =>
    ⟨⟨_, exec_next (.skpVx x) s, s.skipIf_pc_eq_ite _, s.skipIf_frame _⟩,
      ⟨_, exec_next (.sknpVx x) s, s.skipIf_not_pc_eq_ite _, s.skipIf_frame _⟩⟩

/-- Settles O29: the issuing cycle writes the latch, `RUN` and `PC`, and looks at no key. -/
theorem keyWaitLatchesAndWaits : Obligations.KeyWaitLatchesAndWaits :=
  fun x s =>
    ⟨({ s with kx := x, run := .waitingForKey } : State).advance, exec_next (.ldVxK x) s, rfl, rfl, rfl, fun _ _ => rfl,
      rfl, fun _ => rfl, fun _ _ => rfl, .of_eq rfl, fun _ => rfl, rfl, rfl, rfl, rfl, rfl⟩

/-- Settles O31: the draw is counted and then written; the write is the frame of any register load. -/
theorem timerReadDeliversOneDraw : Obligations.TimerReadDeliversOneDraw :=
  fun x s =>
    ⟨nextOf (.ldVxDt x) s, exec_next _ s, State.reg_setReg_same _ x _, rfl,
      (State.setReg_advance_frame { s with timerDraws := s.timerDraws + 1 } x _).1, rfl, rfl, rfl⟩

/-- Settles O32: each timer write is the advance alone. -/
theorem timerWritesOnlyAdvance : Obligations.TimerWritesOnlyAdvance :=
  fun x s =>
    ⟨⟨s.advance, exec_next (.ldDtVx x) s, rfl, s.advance_frameRegs, rfl, rfl, rfl⟩,
      ⟨s.advance, exec_next (.ldStVx x) s, rfl, s.advance_frameRegs, rfl, rfl, rfl⟩⟩

end Sys2Proof.Machine
end

section
/-! The rules that the proofs about exceptions and host commands (60_exceptions.md) lean on: which error a stack
instruction raises, what `ExecOne()` does at each kind of `PC`, and what each host command answers in each run state. -/

namespace Sys2Proof.Machine

/-! ## Stack errors (60_exceptions.md R162, R164) -/

theorem exec_ret_nil {s : State} (h : s.stk = []) : exec .ret s = .next (s.raiseStack .stackUnderflow) := by
  rw [exec_next, nextOf_ret_nil h]

theorem exec_call_of_not_lt {s : State} (nnn : Addr) (h : ¬ s.sp < Params.stackDepth) :
    exec (.call nnn) s = .next (s.raiseStack .stackOverflow) := by
  rw [exec_next, nextOf_call_of_not_lt nnn h]

/-! ## One instruction (40_cycle.md R81) -/

theorem execOne_of_decodes {s : State} {i : Instr} (hpc : s.pc.toNat ≤ 0xFFE)
    (hdec : decodeWord (s.mem.word s.pc.toNat) = .ok i) : execOne s = exec i s := by
  rw [execOne, s.fetch_ok hpc]
  simp only [hdec]

theorem execOne_of_unknown {s : State} {e : DecodeError} (hpc : s.pc.toNat ≤ 0xFFE)
    (hdec : decodeWord (s.mem.word s.pc.toNat) = .error e) : execOne s = .next s.advance := by
  rw [execOne, s.fetch_ok hpc]
  simp only [hdec, unknownNop]

theorem execOne_of_fetch_fault {s : State} (hpc : 0xFFF ≤ s.pc.toNat) :
    ∃ a : FaultAddr, a.toNat = max s.pc.toNat 0x1000 ∧ execOne s = .next (s.raiseFetch a) := by
  rcases execOne_cases s with ⟨-, hfault⟩ | ⟨hle, -⟩ | ⟨hle, -⟩
  · exact hfault
  · omega
  · omega

/-- A fetch fault, an unknown word and an instruction all answer a next state. -/
theorem execOne_next (s : State) : ∃ t, execOne s = .next t := by
  rcases execOne_cases s with ⟨-, a, -, hfault⟩ | ⟨-, -, hnop⟩ | ⟨-, i, -, hexec⟩
  · exact ⟨s.raiseFetch a, hfault⟩
  · exact ⟨s.advance, hnop⟩
  · exact ⟨nextOf i s, hexec.trans (exec_next i s)⟩

/-! ## `step()` (60_exceptions.md R178) -/

theorem stepCommand_of_paused {s : State} (hrun : s.run = .paused) : stepCommand s = execOne s := by
  rw [stepCommand, hrun]

theorem stepCommand_of_not_paused {s : State} (hrun : s.run ≠ .paused) : stepCommand s = .next s := by
  rcases stepCommand_cases s with ⟨h, -⟩ | ⟨-, h⟩
  · exact absurd h hrun
  · exact h

/-- A paused core runs one instruction, and its event is the reply. -/
theorem perform_step_of_paused {s t : State} {event : Option Word} (hrun : s.run = .paused)
    (hnext : execOne s = .next t) (hevent : unknownOpcodeEvent s = event) :
    perform .step s = .next (t, eventReply event) :=
  (withReply_eq_next_iff _ _ _ _).2
    ⟨(stepCommand_of_paused hrun).trans hnext, congrArg eventReply ((if_pos hrun).trans hevent)⟩

theorem perform_step_of_not_paused {s : State} (hrun : s.run ≠ .paused) : perform .step s = .next (s, .done) :=
  (withReply_eq_next_iff _ _ _ _).2 ⟨stepCommand_of_not_paused hrun, congrArg eventReply (if_neg hrun)⟩

/-! ## `pause()` and `resume()` (60_exceptions.md R176, R177) -/

theorem State.pause_of_running {s : State} (hrun : s.run = .running) : s.pause = { s with run := .paused } := by
  rw [State.pause, hrun]

theorem State.pause_of_not_running {s : State} (hrun : s.run ≠ .running) : s.pause = s := by
  unfold State.pause
  split
  next h => exact absurd h hrun
  all_goals rfl

theorem State.resume_of_paused {s : State} (hrun : s.run = .paused) : s.resume = { s with run := .running } := by
  rw [State.resume, hrun]

theorem State.resume_of_not_paused {s : State} (hrun : s.run ≠ .paused) : s.resume = s := by
  unfold State.resume
  split
  next h => exact absurd h hrun
  all_goals rfl

/-! ## Key commands (60_exceptions.md R179, R180) -/

/-- A key command writes the keys and nothing else. -/
theorem State.setKey_eq_withKeys (s : State) (code : Nat) (b : Bool) :
    s.setKey code b = s.withKeys (s.setKey code b).keys := by
  unfold State.setKey
  split <;> rfl

/-- The key commands as one, by the value they write. -/
theorem perform_setKey (code : Nat) (b : Bool) (s : State) :
    perform (if b then .setKeyPressed code else .setKeyReleased code) s = .next (s.setKey code b, .done) := by
  cases b <;> rfl

/-- What other keys leave: all state but the keys, `PC` and the draws included. -/
theorem State.frame_of_eq_withKeys {s t : State} (h : t = s.withKeys t.keys) :
    FrameRegs [] { s with keys := t.keys } t ∧ t.pc = s.pc ∧ SameDraws s t := by
  generalize t.keys = ks at h
  subst h
  exact ⟨⟨fun _ _ => rfl, rfl, fun _ => rfl, fun _ _ => rfl, .of_eq rfl, fun _ => rfl, ⟨rfl, rfl, rfl⟩, rfl⟩, rfl,
    rfl, rfl, rfl⟩

/-! ## `loadRom` (70_reset_and_hazards.md R192, R195) -/

theorem romFits_iff (bytes : List Byte) : romFits bytes = true ↔ bytes.length ≤ 3584 :=
  decide_eq_true_iff

/-- An image that is too long is refused in every state. -/
theorem perform_loadRom_of_too_long {bytes : List Byte} (s : State) (hlong : 3584 < bytes.length) :
    perform (.loadRom bytes) s = .next (s, .romTooLarge) :=
  if_neg (mt (romFits_iff bytes).1 (Nat.not_le_of_lt hlong))

/-- An image that fits has no meaning outside the construction state. -/
theorem perform_loadRom_of_not_beforeLaunch {bytes : List Byte} {s : State} (hfit : bytes.length ≤ 3584)
    (hlate : ¬ s.beforeLaunch = true) : perform (.loadRom bytes) s = .refused .loadRomNotFirst :=
  (if_pos ((romFits_iff bytes).2 hfit)).trans (if_neg hlate)

/-! ## A halted core (60_exceptions.md R169, R181) -/

section
variable {s : State} (hhalt : s.run = .haltedByError)
include hhalt

/-- A halted core neither cycles nor runs, pauses or resumes. -/
theorem perform_of_halted_idle {a : HostAction} (ha : a = .cycle ∨ a = .step ∨ a = .pause ∨ a = .resume) :
    perform a s = .next (s, .done) := by
  have hrunning : s.run ≠ .running := by rw [hhalt]; decide
  have hpaused : s.run ≠ .paused := by rw [hhalt]; decide
  rcases ha with rfl | rfl | rfl | rfl
  · obtain ⟨hstep, hevent⟩ := idleCyclesChangeNothing s (.inr hhalt)
    exact (withReply_eq_next_iff _ _ _ _).2 ⟨hstep, congrArg eventReply hevent⟩
  · exact perform_step_of_not_paused hpaused
  · rw [perform, State.pause_of_not_running hrunning]
  · rw [perform, State.resume_of_not_paused hpaused]

theorem State.not_beforeLaunch_of_halted : ¬ s.beforeLaunch = true := by
  intro hlaunch
  have hrun := s.beforeLaunch_run hlaunch
  rw [hhalt] at hrun
  simp at hrun

theorem perform_loadRom_of_halted (bytes : List Byte) :
    perform (.loadRom bytes) s =
      if 3584 < bytes.length then .next (s, .romTooLarge) else .refused .loadRomNotFirst := by
  split
  case isTrue hlong => exact perform_loadRom_of_too_long s hlong
  case isFalse hfit =>
    exact perform_loadRom_of_not_beforeLaunch (Nat.le_of_not_lt hfit) (State.not_beforeLaunch_of_halted hhalt)

/-- Whatever the host does to a halted core short of a reset, only the keys can change. -/
theorem perform_of_halted_withKeys {a : HostAction} {t : State} {r : Reply} (ha : a ≠ .reset)
    (hp : perform a s = .next (t, r)) : t = s.withKeys t.keys := by
  cases a with
  | reset => exact absurd rfl ha
  | cycle | step | pause | resume =>
    rw [perform_of_halted_idle hhalt (by simp)] at hp
    cases hp
    rfl
  | setKeyPressed code => cases hp; exact s.setKey_eq_withKeys code true
  | setKeyReleased code => cases hp; exact s.setKey_eq_withKeys code false
  | query => cases hp; rfl
  | loadRom bytes =>
    rw [perform_loadRom_of_halted hhalt] at hp
    split at hp
    · cases hp
      rfl
    · cases hp

end

end Sys2Proof.Machine
end

section
/-! The statements about exceptions and host commands (60_exceptions.md), each from the rules above. -/

namespace Sys2Proof.Machine

/-- Settles O37: by the kind of host action, a halted core stands still, or only its keys change, until `reset()`. -/
theorem haltIsTerminalUntilReset : Obligations.HaltIsTerminalUntilReset := by
  intro s hhalt
  refine ⟨fun a t r ha hp => ?_, fun a ha => perform_of_halted_idle hhalt ha, fun code b => ?_, rfl,
    perform_loadRom_of_halted hhalt, s.resetCommand, rfl, rfl, rfl⟩
  · have hkeys : t = s.withKeys t.keys := perform_of_halted_withKeys hhalt ha hp
    exact ⟨(congrArg State.run hkeys).trans hhalt, (congrArg State.err hkeys).trans rfl, hkeys⟩
  · exact ⟨s.setKey code b, perform_setKey code b s, fun k => s.key_setKey code k b,
      State.frame_of_eq_withKeys (s.setKey_eq_withKeys code b)⟩

/-- Settles O39: a cycle idles, polls or runs `ExecOne()`, and each answers a next state. -/
theorem everyStepAnswersANextState : Obligations.EveryStepAnswersANextState := by
  intro s
  rcases cycle_cases s with ⟨-, hidle⟩ | ⟨-, hpoll⟩ | ⟨-, hexec⟩
  · exact ⟨s, hidle⟩
  · exact ⟨keyWaitPoll s, hpoll⟩
  · obtain ⟨t, ht⟩ := execOne_next s
    exact ⟨t, hexec.trans ht⟩

/-- Settles O58: the three outcomes of `ExecOne()`, each with its event; how the instruction ends is O38. -/
theorem singleStepRunsOneInstruction : Obligations.SingleStepRunsOneInstruction := by
  intro s
  refine ⟨fun i hrun hpc hdec => ?_, fun e hrun hpc hdec => ?_, fun hrun hpc => ?_, perform_step_of_not_paused⟩
  · obtain ⟨t, hexec, hend⟩ := fatalErrorsArePrecise i s
    refine ⟨t, perform_step_of_paused hrun ((execOne_of_decodes hpc hdec).trans hexec)
      (unknownOpcodeEvent_ok s i hpc hdec), hexec, ?_⟩
    rcases hend with ⟨hhalted, hkind, -⟩ | ⟨hkept, -⟩ | ⟨hwait, -, hi⟩
    · exact .inr (.inl ⟨hhalted, hkind⟩)
    · exact .inl (hkept.trans hrun)
    · exact .inr (.inr ⟨hwait, hi⟩)
  · exact ⟨s.advance, perform_step_of_paused hrun (execOne_of_unknown hpc hdec) (unknownOpcodeEvent_error s e hpc hdec),
      hrun, rfl, s.advance_frameRegs, rfl, rfl, rfl⟩
  · obtain ⟨a, ha, hfault⟩ := execOne_of_fetch_fault hpc
    exact ⟨s.raiseFetch a, perform_step_of_paused hrun hfault (unknownOpcodeEvent_fault s hpc), rfl, rfl, rfl, ha,
      s.raise_frameError _ _ _⟩

/-- Settles O23: RET on an empty stack and CALL at the depth raise, and the record is that of any stack error. -/
theorem stackErrorsAreRecorded : Obligations.StackErrorsAreRecorded :=
  fun nnn s =>
    ⟨fun hempty => ⟨_, exec_ret_nil (List.eq_nil_of_length_eq_zero hempty), s.raiseStack_raised _⟩,
      fun hfull => ⟨_, exec_call_of_not_lt nnn (Nat.not_lt_of_ge hfull.ge), s.raiseStack_raised _⟩⟩

/-- Settles O57, command by command and by whether the run state is the one it acts in. -/
theorem pauseAndResumeToggleRunOnly : Obligations.PauseAndResumeToggleRunOnly :=
  fun s =>
    ⟨fun h => by rw [perform, State.pause_of_running h], fun h => by rw [perform, State.pause_of_not_running h],
      fun h => by rw [perform, State.resume_of_paused h], fun h => by rw [perform, State.resume_of_not_paused h]⟩

/-- Settles O59: both commands write one key of the latch, if the code names one, and leave the rest. -/
theorem keyCommandsWriteOneKey : Obligations.KeyCommandsWriteOneKey :=
  fun code s =>
    ⟨s.setKeyPressed code, s.setKeyReleased code, rfl, rfl, fun k => s.key_setKey code k true,
      fun k => s.key_setKey code k false, s.setKey_eq_withKeys code true, s.setKey_eq_withKeys code false⟩

end Sys2Proof.Machine
end

section
/-! The rules that the proofs about `reset()` and `loadRom` (70_reset_and_hazards.md) lean on: where the bytes of an image
stand, and what the copy of an image leaves alone. -/

namespace Sys2Proof.Machine

/-- An image stands byte by byte from the address it was copied to. -/
theorem Memory.getElem?_eq_read_writeBytes (m : Memory) (a : Nat) {bytes : List Byte} {j : Nat}
    (hj : j < bytes.length) : bytes[j]? = some ((m.writeBytes a bytes).read (a + j)) := by
  rw [m.read_writeBytes_of_getElem? a (List.getElem?_eq_getElem hj), List.getElem?_eq_getElem hj]

/-- The construction state is one in which `loadRom` is defined. -/
theorem State.reset_beforeLaunch : State.reset.beforeLaunch = true := by decide

/-- An image that fits is copied, in the state in which `loadRom` is defined. -/
theorem perform_loadRom_of_beforeLaunch {bytes : List Byte} {s : State} (hfit : bytes.length ≤ 3584)
    (hlaunch : s.beforeLaunch = true) : perform (.loadRom bytes) s = .next (s.loadImage bytes, .done) :=
  (if_pos ((romFits_iff bytes).2 hfit)).trans (if_pos hlaunch)

/-- The copy of an image leaves all state but memory and the retained image. -/
theorem State.loadImage_frame (s : State) (bytes : List Byte) :
    SameRegsBut [] s (s.loadImage bytes) ∧ (s.loadImage bytes).i = s.i ∧ (s.loadImage bytes).pc = s.pc ∧
      SamePlane s (s.loadImage bytes) ∧ SameStack s (s.loadImage bytes) ∧ SameKeys s (s.loadImage bytes) ∧
      SameControl s (s.loadImage bytes) ∧ SameDraws s (s.loadImage bytes) :=
  ⟨fun _ _ => rfl, rfl, rfl, .of_eq rfl, .of_eq rfl, fun _ => rfl, ⟨rfl, rfl, rfl⟩, rfl, rfl, rfl⟩

end Sys2Proof.Machine
end

section
/-! The statements about `reset()` and `loadRom` (70_reset_and_hazards.md), each from the rules above. -/

namespace Sys2Proof.Machine

/-- Settles O55: `reset()` answers the construction state, with the retained image written over memory as constructed,
so no byte that a program stored survives. -/
theorem resetRebuildsEverything : Obligations.ResetRebuildsEverything :=
  fun s =>
    ⟨s.resetCommand, rfl, State.reset_reg, rfl, rfl, rfl, Plane.cell_clear, State.reset_key, rfl, rfl, rfl,
      ⟨rfl, rfl, rfl⟩, fun _ ha => State.reset.mem.read_writeBytes_outside ha,
      fun _ hj => State.reset.mem.getElem?_eq_read_writeBytes Config.romBase hj⟩

/-- Settles O56, by the size of the image: one that fits is copied over memory as constructed, a longer one is refused. -/
theorem loadRomCopiesAndRetains : Obligations.LoadRomCopiesAndRetains := by
  refine ⟨fun bytes hfit => ⟨State.reset.loadImage bytes, ?_, rfl, fun j hj => ?_, fun a ha => ?_, ?_⟩,
    fun bytes s hlong => perform_loadRom_of_too_long s hlong⟩
  · exact perform_loadRom_of_beforeLaunch hfit State.reset_beforeLaunch
  · exact State.reset.mem.getElem?_eq_read_writeBytes Config.romBase hj
  · exact State.reset.mem.read_writeBytes_outside ha
  · exact State.reset.loadImage_frame bytes

end Sys2Proof.Machine
end
